-- ==== Sys2Proof/Word.lean ====
section
/-! DEFINITION. The word types: a byte of the transport, the 32-bit datagram word (spec/30_encoding.md R52),
the 24 bits of it that `spec/opcode_table.json` gives a wire datagram, and the 48-bit host command word (R69). -/

namespace Sys2Proof

/-- One byte of the transport (spec/20_memory.md R40). -/
abbrev Byte := BitVec 8

/-- A datagram word, WORD_WIDTH = 32 bits (spec/00_scope.md R7, spec/30_encoding.md R52). -/
abbrev Word := BitVec 32

/-- The bits of a datagram below its PAD field (spec/30_encoding.md R53, R63). -/
abbrev DatagramWord := BitVec 24

/-- A host command word (spec/30_encoding.md R69). -/
abbrev HostWord := BitVec 48

end Sys2Proof
end

