-- ==== Sys2Proof/Config.lean ====
section
/-! DEFINITION. The block's parameters (spec/00_scope.md R7): what is fixed, what an implementation chooses, and the
free value for the bytes the transport returns (spec/20_memory.md R45). -/

namespace Sys2Proof

/-- `DATAGRAM_BYTES`: 3 by default, and a model may take 4 (spec/00_scope.md R7, spec/92_eei_decisions.md D1). -/
inductive DatagramBytes where
  | three
  | four
  deriving DecidableEq, Repr

/-- The `bit_order` argument of `begin_transaction`. The block only ever passes `MSB_FIRST` (spec/20_memory.md R38). -/
inductive BitOrder where
  | msbFirst
  | lsbFirst
  deriving DecidableEq, Repr

namespace Config

/-- `CHIP_COUNT_MIN` (spec/00_scope.md R7). -/
def chipCountMin : Nat := 1

/-- `CHIP_COUNT_MAX` (spec/00_scope.md R7). -/
def chipCountMax : Nat := 4

/-- `CHANNELS_PER_CHIP` (spec/00_scope.md R7). -/
def channelsPerChip : Nat := 4

/-- `BIT_ORDER` (spec/20_memory.md R38). -/
def bitOrder : BitOrder := .msbFirst

/-- `SPI_CLOCK_HZ`, an OPEN parameter that no rule reads (spec/00_scope.md R7, spec/70_reset_and_hazards.md R157; log 8). -/
opaque spiClockHz : Nat

/-- `SPI_MODE`, an OPEN parameter that the block only passes on (spec/00_scope.md R7; log 8). -/
opaque spiMode : Nat

/-- The oracle: the byte the transport returns from transfer number `n`, any value under no law
(spec/20_memory.md R45; log 7). A free value: it has no body, so nothing can be proved of it. -/
opaque oracleByte : Nat → Byte

end Config

end Sys2Proof
end

