-- ==== Sys2Proof/Syntax.lean ====
section
/-! DEFINITION. The operations: one constructor of `Instr` per row of `spec/opcode_table.json`, and the enumerations
their operands are made of (spec/30_encoding.md). -/

namespace Sys2Proof

/-- The operand of an operation that names one logical channel or all channels of all chips
(spec/30_encoding.md R72, spec/41_addressing_and_transactions.md R91, spec/90_conflicts.md C6). -/
inductive Target where
  | channel (c : Nat)
  | all
  deriving DecidableEq, Repr

/-- A channel address code of a DAC or OUTPUT_RANGE datagram (spec/30_encoding.md R56). -/
inductive ChannelAddr where
  | chA
  | chB
  | chC
  | chD
  | all
  deriving DecidableEq, Repr

/-- An output range, in the order of its payload code 0 to 5 (spec/30_encoding.md R60). -/
inductive OutputRange where
  | uni5V
  | uni10V
  | uni10V8
  | bip5V
  | bip10V
  | bip10V8
  deriving DecidableEq, Repr

/-- The operations. The first thirteen constructors are the host commands of spec/30_encoding.md R70 and R75 with the
operands of R71. The last six are the wire datagrams of R63, which the block's transaction sequencer sends (log 13). -/
inductive Instr where
  /-- `configure(resolution, chip_count)`, spec/42_configuration.md R106. `res` is the raw resolution code. -/
  | configure (chipCount : Nat) (res : BitVec 2)
  /-- `channel_count()`, spec/42_configuration.md R109. -/
  | channelCount
  /-- `set_output_range(target, range)`, spec/43_output.md R111. `range` is the raw 3-bit operand. -/
  | setOutputRange (t : Target) (range : BitVec 3)
  /-- `min_value()`, spec/43_output.md R113. -/
  | minValue
  /-- `max_value()`, spec/43_output.md R114. -/
  | maxValue
  /-- `write_value(target, value)`, spec/43_output.md R116. `value` is signed, two's complement. -/
  | writeValue (t : Target) (value : BitVec 32)
  /-- `channel_powered_up(channel)`, spec/44_status.md R119. -/
  | channelPoweredUp (channel : Nat)
  /-- `reference_powered_up(chip_index)`, spec/44_status.md R120. -/
  | referencePoweredUp (chip : Nat)
  /-- `thermal_shutdown(chip_index)`, spec/44_status.md R121. -/
  | thermalShutdown (chip : Nat)
  /-- `channel_over_current(channel)`, spec/44_status.md R122. -/
  | channelOverCurrent (channel : Nat)
  /-- ENCODE, spec/40_codec.md R82: raw field codes and a 32-bit payload. -/
  | codecEncode (dir : BitVec 1) (reg addr : BitVec 3) (payload : BitVec 32)
  /-- DECODE, spec/40_codec.md R85: field B, of which the meaning reads the low DATAGRAM_BYTES bytes. -/
  | codecDecode (received : BitVec 32)
  /-- A host word whose OP names no operation, spec/30_encoding.md R75, spec/60_exceptions.md R126. -/
  | illegalOperation (op : BitVec 8)
  /-- DG_DAC_WRITE(a, p), spec/30_encoding.md R63. -/
  | dgDacWrite (addr : ChannelAddr) (payload : BitVec 16)
  /-- DG_RANGE_WRITE(a, r), spec/30_encoding.md R63. -/
  | dgRangeWrite (addr : ChannelAddr) (range : OutputRange)
  /-- DG_POWER_UP, spec/42_configuration.md R108. -/
  | dgPowerUp
  /-- DG_NOP, spec/30_encoding.md R63. -/
  | dgNop
  /-- DG_LOAD, spec/43_output.md R117. -/
  | dgLoad
  /-- DG_POWER_READ, spec/41_addressing_and_transactions.md R101. -/
  | dgPowerRead
  deriving DecidableEq, Repr

/-- The unit an operation is encoded in: a host command word or the 24 bits of a wire datagram. -/
inductive TableWord where
  | host (w : HostWord)
  | wire (w : DatagramWord)
  deriving DecidableEq, Repr

end Sys2Proof
end

