-- ==== Sys2Proof/WellFormed.lean ====
section
/-! DEFINITION. Which operations an encoding can spell: the operand bounds of spec/30_encoding.md R71, R72 and R75. -/

namespace Sys2Proof

/-- `Target = Channel(c : 0..254) | All` (spec/30_encoding.md R72): index 255 is the port's code for `All`. -/
def Target.wellFormed : Target → Bool
  | .channel c => decide (c < 255)
  | .all => true

/-- The OP codes of spec/30_encoding.md R70 are 0x01 to 0x0C; every other code names no operation (R75). -/
def legalOp (op : BitVec 8) : Bool := decide (1 ≤ op.toNat ∧ op.toNat ≤ 12)

/-- An operand of field A, 8 bits (spec/30_encoding.md R71). -/
def fitsA (n : Nat) : Bool := decide (n < 256)

/-- Every operand fits its field of the encoding. -/
def Instr.wellFormed : Instr → Bool
  | .configure n _ => fitsA n
  | .channelCount => true
  | .setOutputRange t _ => t.wellFormed
  | .minValue => true
  | .maxValue => true
  | .writeValue t _ => t.wellFormed
  | .channelPoweredUp c => fitsA c
  | .referencePoweredUp k => fitsA k
  | .thermalShutdown k => fitsA k
  | .channelOverCurrent c => fitsA c
  | .codecEncode _ _ _ _ => true
  | .codecDecode _ => true
  | .illegalOperation op => !legalOp op
  | .dgDacWrite _ _ => true
  | .dgRangeWrite _ _ => true
  | .dgPowerUp => true
  | .dgNop => true
  | .dgLoad => true
  | .dgPowerRead => true

end Sys2Proof
end

