-- ==== Sys2Proof/Decode.lean ====
section
/-! DEFINITION. The datagram format (pack, unpack, to_bytes, from_bytes: spec/40_codec.md), the six datagrams the block
sends (spec/30_encoding.md R63), the decoder of host command words and wire datagrams, and the encoder. -/

namespace Sys2Proof

/-! ### The datagram word -/

/-- The four fields of a datagram as raw codes (spec/40_codec.md R83). -/
structure Datagram where
  dir : BitVec 1
  reg : BitVec 3
  addr : BitVec 3
  payload : BitVec 16
  deriving DecidableEq, Repr

/-- `pack` (spec/40_codec.md R80): each input is masked to its field; PAD and RSV are 0 (spec/30_encoding.md R53). -/
def pack (dir reg addr payload : Nat) : Word :=
  (0#8 ++ BitVec.ofNat 1 dir ++ 0#1 ++ BitVec.ofNat 3 reg ++ BitVec.ofNat 3 addr ++ BitVec.ofNat 16 payload : BitVec 32)

/-- `unpack` (spec/40_codec.md R83): PAD and RSV are ignored, reserved codes are returned raw. -/
def unpack (w : Word) : Datagram where
  dir := w.extractLsb' 23 1
  reg := w.extractLsb' 19 3
  addr := w.extractLsb' 16 3
  payload := w.extractLsb' 0 16

/-- `DATAGRAM_BYTES` as a number (spec/00_scope.md R7). -/
def DatagramBytes.toNat : DatagramBytes → Nat
  | .three => 3
  | .four => 4

/-- `to_bytes` (spec/40_codec.md R81): most significant byte first. -/
def toBytes : DatagramBytes → Word → List Byte
  | .three, w => [w.extractLsb' 16 8, w.extractLsb' 8 8, w.extractLsb' 0 8]
  | .four, w => [w.extractLsb' 24 8, w.extractLsb' 16 8, w.extractLsb' 8 8, w.extractLsb' 0 8]

/-- `from_bytes` (spec/40_codec.md R84): the first byte is the most significant. -/
def fromBytes (bytes : List Byte) : Word :=
  bytes.foldl (fun w b => (w <<< 8) ||| b.setWidth 32) 0

/-- The bytes `b_0 ... b_{B-1}` that field B of a DECODE command carries, first byte most significant
(spec/40_codec.md R85). -/
def receivedBytes (db : DatagramBytes) (b : Word) : List Byte := toBytes db b

/-! ### Field codes -/

/-- REG codes (spec/30_encoding.md R55). -/
def regDac : Nat := 0
def regOutputRange : Nat := 1
def regPowerControl : Nat := 2
def regControl : Nat := 3

/-- DIR codes (spec/30_encoding.md R54). -/
def dirWrite : Nat := 0
def dirRead : Nat := 1

/-- `PC_SUB` (spec/30_encoding.md R57). -/
def pcSub : Nat := 0

/-- The control functions the block sends (spec/30_encoding.md R58). -/
def controlNop : Nat := 0
def controlLoad : Nat := 5

/-- The power-up payload `PU_A | PU_B | PU_C | PU_D | PU_REF` (spec/30_encoding.md R61). -/
def powerUpPayload : Nat := 1 <<< 0 ||| 1 <<< 1 ||| 1 <<< 2 ||| 1 <<< 3 ||| 1 <<< 4

/-- The ADDR code of a channel address (spec/30_encoding.md R56). -/
def ChannelAddr.code : ChannelAddr → Nat
  | .chA => 0
  | .chB => 1
  | .chC => 2
  | .chD => 3
  | .all => 4

/-- The channel address of an ADDR code; 0b101 to 0b111 are reserved (spec/30_encoding.md R56). -/
def ChannelAddr.ofCode (code : BitVec 3) : Option ChannelAddr :=
  match code.toNat with
  | 0 => some .chA
  | 1 => some .chB
  | 2 => some .chC
  | 3 => some .chD
  | 4 => some .all
  | _ => none

/-- The payload code of an output range (spec/30_encoding.md R60). -/
def OutputRange.code : OutputRange → Nat
  | .uni5V => 0
  | .uni10V => 1
  | .uni10V8 => 2
  | .bip5V => 3
  | .bip10V => 4
  | .bip10V8 => 5

/-- The output range of a payload; the block sends codes 0 to 5 only (spec/30_encoding.md R59, R63). -/
def OutputRange.ofPayload (p : BitVec 16) : Option OutputRange :=
  match p.toNat with
  | 0 => some .uni5V
  | 1 => some .uni10V
  | 2 => some .uni10V8
  | 3 => some .bip5V
  | 4 => some .bip10V
  | 5 => some .bip10V8
  | _ => none

/-! ### The six datagrams (spec/30_encoding.md R63) -/

/-- DG_DAC_WRITE(a, p). -/
def dacWriteWord (a : ChannelAddr) (p : BitVec 16) : Word := pack dirWrite regDac a.code p.toNat

/-- DG_RANGE_WRITE(a, r). -/
def rangeWriteWord (a : ChannelAddr) (r : OutputRange) : Word := pack dirWrite regOutputRange a.code r.code

/-- DG_POWER_UP (spec/42_configuration.md R108). -/
def powerUpWord : Word := pack dirWrite regPowerControl pcSub powerUpPayload

/-- DG_NOP (spec/41_addressing_and_transactions.md R95). -/
def nopWord : Word := pack dirWrite regControl controlNop 0

/-- DG_LOAD (spec/43_output.md R117). -/
def loadWord : Word := pack dirWrite regControl controlLoad 0

/-- DG_POWER_READ (spec/41_addressing_and_transactions.md R101). -/
def powerReadWord : Word := pack dirRead regPowerControl pcSub 0

/-- The 24 bits below PAD (spec/30_encoding.md R53). -/
def belowPad (w : Word) : DatagramWord := w.extractLsb' 0 24

/-! ### Decoding -/

/-- Why 24 bits are no datagram the block sends (spec/30_encoding.md R64). -/
inductive DecodeError where
  /-- RSV is always 0 when encoded (spec/30_encoding.md R53). -/
  | reservedBitSet
  /-- REG 0b100 to 0b111 (spec/30_encoding.md R55). -/
  | reservedRegister
  /-- A reserved ADDR code of a DAC or OUTPUT_RANGE datagram (spec/30_encoding.md R56). -/
  | reservedAddress
  /-- An OUTPUT_RANGE payload that is no range code (spec/30_encoding.md R59, R60). -/
  | notARange
  /-- A power-control write other than DG_POWER_UP (spec/30_encoding.md R57, R63). -/
  | powerWriteNeverSent
  /-- A control write other than DG_NOP and DG_LOAD (spec/30_encoding.md R58, R64). -/
  | controlNeverSent
  /-- A read other than DG_POWER_READ (spec/30_encoding.md R64). -/
  | readNeverSent
  deriving DecidableEq, Repr

/-- Which of the six datagrams of spec/30_encoding.md R63 a word is, if any. -/
def decodeWire (w : DatagramWord) : Except DecodeError Instr :=
  let f := unpack (w.setWidth 32)
  if w.getLsbD 22 then .error .reservedBitSet
  else if 4 ≤ f.reg.toNat then .error .reservedRegister
  else if f.dir = 1 then
    if w = belowPad powerReadWord then .ok .dgPowerRead else .error .readNeverSent
  else match f.reg.toNat with
  | 0 => match ChannelAddr.ofCode f.addr with
    | some a => .ok (.dgDacWrite a f.payload)
    | none => .error .reservedAddress
  | 1 => match ChannelAddr.ofCode f.addr with
    | some a => match OutputRange.ofPayload f.payload with
      | some r => .ok (.dgRangeWrite a r)
      | none => .error .notARange
    | none => .error .reservedAddress
  | 2 => if w = belowPad powerUpWord then .ok .dgPowerUp else .error .powerWriteNeverSent
  | _ =>
    if w = belowPad nopWord then .ok .dgNop
    else if w = belowPad loadWord then .ok .dgLoad
    else .error .controlNeverSent

/-- The OP, A and B fields of a host command word (spec/30_encoding.md R69). -/
def hostOp (w : HostWord) : BitVec 8 := w.extractLsb' 40 8
def hostA (w : HostWord) : BitVec 8 := w.extractLsb' 32 8
def hostB (w : HostWord) : BitVec 32 := w.extractLsb' 0 32

/-- The target operand of field A (spec/30_encoding.md R72). -/
def decodeTarget (a : BitVec 8) : Target := if a = 0xFF#8 then .all else .channel a.toNat

/-- The operation a host command word spells (spec/30_encoding.md R70, R71, R75). Bits that R71 assigns to no operand
are not read (R76). Total: every word is an operation or ILLEGAL_OPERATION. -/
def decodeHost (w : HostWord) : Instr :=
  let a := hostA w
  let b := hostB w
  match (hostOp w).toNat with
  | 1 => .configure a.toNat (b.extractLsb' 0 2)
  | 2 => .channelCount
  | 3 => .setOutputRange (decodeTarget a) (b.extractLsb' 0 3)
  | 4 => .minValue
  | 5 => .maxValue
  | 6 => .writeValue (decodeTarget a) b
  | 7 => .channelPoweredUp a.toNat
  | 8 => .referencePoweredUp a.toNat
  | 9 => .thermalShutdown a.toNat
  | 10 => .channelOverCurrent a.toNat
  | 11 => .codecEncode (a.extractLsb' 7 1) (a.extractLsb' 3 3) (a.extractLsb' 0 3) b
  | 12 => .codecDecode b
  | _ => .illegalOperation (hostOp w)

/-- The decoder, total on any word: it answers an operation or rejects the word by name. -/
def decode : TableWord → Except DecodeError Instr
  | .host w => .ok (decodeHost w)
  | .wire w => decodeWire w

/-! ### Encoding -/

/-- A host command word from its three fields (spec/30_encoding.md R69). -/
def hostWord (op a : BitVec 8) (b : BitVec 32) : HostWord := (op ++ a ++ b : BitVec 48)

/-- Field A of a target (spec/30_encoding.md R72). -/
def encodeTarget : Target → BitVec 8
  | .channel c => BitVec.ofNat 8 c
  | .all => 0xFF#8

/-- The word of a well-formed operation, every unassigned bit 0 (spec/30_encoding.md R63, R70, R71). -/
def encode : Instr → TableWord
  | .configure n res => .host (hostWord 0x01#8 (BitVec.ofNat 8 n) (res.setWidth 32))
  | .channelCount => .host (hostWord 0x02#8 0 0)
  | .setOutputRange t r => .host (hostWord 0x03#8 (encodeTarget t) (r.setWidth 32))
  | .minValue => .host (hostWord 0x04#8 0 0)
  | .maxValue => .host (hostWord 0x05#8 0 0)
  | .writeValue t v => .host (hostWord 0x06#8 (encodeTarget t) v)
  | .channelPoweredUp c => .host (hostWord 0x07#8 (BitVec.ofNat 8 c) 0)
  | .referencePoweredUp k => .host (hostWord 0x08#8 (BitVec.ofNat 8 k) 0)
  | .thermalShutdown k => .host (hostWord 0x09#8 (BitVec.ofNat 8 k) 0)
  | .channelOverCurrent c => .host (hostWord 0x0A#8 (BitVec.ofNat 8 c) 0)
  | .codecEncode d r a p => .host (hostWord 0x0B#8 (d ++ 0#1 ++ r ++ a : BitVec 8) p)
  | .codecDecode b => .host (hostWord 0x0C#8 0 b)
  | .illegalOperation op => .host (hostWord op 0 0)
  | .dgDacWrite a p => .wire (belowPad (dacWriteWord a p))
  | .dgRangeWrite a r => .wire (belowPad (rangeWriteWord a r))
  | .dgPowerUp => .wire (belowPad powerUpWord)
  | .dgNop => .wire (belowPad nopWord)
  | .dgLoad => .wire (belowPad loadWord)
  | .dgPowerRead => .wire (belowPad powerReadWord)

/-! ### The table's numbering -/

/-- The word `spec/opcode_table.json` numbers: 48 bits for a host command, 24 for a wire datagram. -/
def tableWord (nbits w : Nat) : Option TableWord :=
  if nbits = 48 then some (.host (BitVec.ofNat 48 w))
  else if nbits = 24 then some (.wire (BitVec.ofNat 24 w))
  else none

/-- The operation the decoder reads from a row's bits. -/
def decodeTableWord (nbits w : Nat) : Option Instr :=
  (tableWord nbits w).bind fun t => (decode t).toOption

end Sys2Proof
end

