-- ==== Sys2Proof/Machine/State.lean ====
section
/-! DEFINITION. The machine's state (spec/10_state.md section 2), its ports, its inputs, and the reasons a step stops. -/

namespace Sys2Proof.Machine

/-- `RESOLUTION`, the chip variant (spec/10_state.md R19). Code 3 never occurs (R23). -/
inductive Resolution where
  | r12
  | r14
  | r16
  deriving DecidableEq, Repr

/-- `POLARITY` (spec/10_state.md R20). -/
inductive Polarity where
  | unipolar
  | bipolar
  deriving DecidableEq, Repr

/-- What `FAULT` holds (spec/60_exceptions.md R124). -/
inductive FaultCode where
  | none
  | illegalOperation
  | notConfigured
  | alreadyConfigured
  | invalidResolution
  | channelOutOfRange
  | chipIndexOutOfRange
  deriving DecidableEq, Repr

/-- The level of a `PIN_WRITE` (spec/60_exceptions.md R140). -/
inductive Level where
  | low
  | high
  deriving DecidableEq, Repr

/-- The level the block last asked for on a pin; UNKNOWN until the first write (spec/10_state.md R22). -/
inductive PinLevel where
  | unknown
  | low
  | high
  deriving DecidableEq, Repr

/-- The pin handles `PIN_CS`, `PIN_LDAC` and `PIN_CLR` (spec/10_state.md R26; log 9). -/
inductive Pin where
  | cs
  | ldac
  | clr
  deriving DecidableEq, Repr

/-- The events of the output trace (spec/00_scope.md R10). -/
inductive Event where
  | pinCfg (pin : Pin)
  | pinWrite (pin : Pin) (level : Level)
  | busBegin (rate : Nat) (order : BitOrder) (mode : Nat)
  | busXfer (tx rx : Byte)
  | busEnd
  deriving DecidableEq, Repr

/-- The kind of a result (spec/30_encoding.md R79). -/
inductive ResultKind where
  | none
  | uint
  | int
  | bool
  | bytes
  | fields
  | fault
  deriving DecidableEq, Repr

/-- What the result port carries: a kind and the 32-bit `RES` (spec/10_state.md R27, spec/30_encoding.md R79). -/
structure Result where
  kind : ResultKind
  res : Word
  deriving DecidableEq, Repr

/-- A chip selector (spec/41_addressing_and_transactions.md R93). -/
inductive ChipSel where
  | chip (k : Nat)
  | allChips
  deriving DecidableEq, Repr

/-- What a datagram of the sequencer is given beside its word, because no bit of the word carries it
(spec/30_encoding.md R68): the index of the one chip it is for, where its kind is for one chip, and whether a load is for
all chips. It is the argument `sel` of spec/41_addressing_and_transactions.md R100, in a form that leaves no other
pairing than those of R105 (log 13). -/
structure RowArg where
  chip : Nat
  all : Bool
  deriving DecidableEq, Repr

/-- What waits to be run: a host command on the command port (spec/10_state.md R28), or a datagram given to the block's
own transaction sequencer with its argument (spec/41_addressing_and_transactions.md R100; log 13). -/
inductive Pending where
  | command (w : HostWord)
  | datagram (arg : RowArg) (w : DatagramWord)
  deriving DecidableEq, Repr

/-- The state. The fields from `cfgValid` to `clrLvl` are spec/10_state.md R16's, in its order. -/
structure State where
  /-- `CFG_VALID` (R17). -/
  cfgValid : Bool
  /-- `CHIP_COUNT`, 3 bits (R18). -/
  chipCount : BitVec 3
  /-- `RESOLUTION` (R19). -/
  resolution : Resolution
  /-- `POLARITY` (R20, R32). -/
  polarity : Polarity
  /-- `FAULT` (R21). -/
  faultCode : FaultCode
  /-- `CS_LVL` (R22). -/
  csLvl : PinLevel
  /-- `LDAC_LVL` (R22). -/
  ldacLvl : PinLevel
  /-- `CLR_LVL` (R22). -/
  clrLvl : PinLevel
  /-- The result port (R27). -/
  result : Result
  /-- The output trace, oldest event first (spec/00_scope.md R10, spec/10_state.md R28). -/
  trace : List Event
  /-- The parameter `DATAGRAM_BYTES` (R26). No step writes it (log 10). -/
  datagramBytes : DatagramBytes
  /-- The model's own: the platform's reset signal, waiting to be taken (spec/70_reset_and_hazards.md R145; log 12). -/
  resetLine : Bool
  /-- The model's own: the commands the host has yet to have run, in its issue order (spec/10_state.md R14; log 1). -/
  pending : List Pending
  /-- The model's own: the argument of the datagram that is being run. It comes with the datagram, no operation writes
  it, and no later step reads it (spec/20_memory.md R51; log 13). -/
  rowArg : RowArg
  /-- The model's own input: the next bytes the transport returns, as far as they are given (spec/20_memory.md R45; log 7). -/
  replies : List Byte
  /-- The model's own: how many bytes have been transferred; it picks the free value (log 7). -/
  xfers : Nat
  deriving DecidableEq, Repr

/-- Why the machine stops. -/
inductive Fault where
  /-- Raised by every operation while `FAULT` is not 0: the block "takes no step, emits no event, writes no state and
  returns nothing" until reset (spec/60_exceptions.md R129; log 11). Safe: the spec itself calls this state stuck. -/
  | stuck
  deriving DecidableEq, Repr

/-- Why the model gives a step no meaning. -/
inductive Refusal where
  /-- An operation whose meaning is not written. No arm of `exec` answers with it. Safe. -/
  | notModelled (mnemonic : String)
  /-- Raised by the step when the sequencer is given 24 bits that are none of the six datagrams the block sends
  (spec/30_encoding.md R64: "A model of the block needs no rule for it"; log 14). Safe. -/
  | neverSent (why : DecodeError)
  deriving DecidableEq, Repr

/-- What a step answers. -/
abbrev Outcome := Host.Outcome State Fault Refusal

/-- The block after reset (spec/10_state.md R34, spec/70_reset_and_hazards.md R145, R146). The values of `chipCount`,
`resolution`, `polarity` (logs 2, 3, 4) and `result` (log 5) are DESIGN CHOICES: the spec gives them no value. -/
def State.reset : State where
  cfgValid := false
  chipCount := 1#3
  resolution := .r12
  polarity := .unipolar
  faultCode := .none
  csLvl := .unknown
  ldacLvl := .unknown
  clrLvl := .unknown
  result := ⟨.none, 0⟩
  trace := []
  datagramBytes := .three
  resetLine := false
  pending := []
  rowArg := ⟨0, true⟩
  replies := []
  xfers := 0

end Sys2Proof.Machine
end

