-- ==== Sys2Proof/Machine/Operands.lean ====
section
/-! DEFINITION. Every operand form: the clamp of the chip count, the resolution and range codes, the mapping from a
logical channel to a chip and a channel address, the bounds of the value range, and the payload of a value. -/

namespace Sys2Proof.Machine

/-! ### Configuration operands -/

/-- `clamp_chip_count` (spec/42_configuration.md R107): out of range gives the minimum, not the nearest bound. -/
def clampChipCount (n : Nat) : BitVec 3 :=
  if Config.chipCountMin ≤ n ∧ n ≤ Config.chipCountMax then BitVec.ofNat 3 n else BitVec.ofNat 3 Config.chipCountMin

/-- The resolution operand (spec/30_encoding.md R73); code 3 is invalid. -/
def Resolution.ofCode (code : BitVec 2) : Option Resolution :=
  match code.toNat with
  | 0 => some .r12
  | 1 => some .r14
  | 2 => some .r16
  | _ => none

/-! ### Channels, chips and targets -/

/-- `S.CHIP_COUNT` as a number. -/
def State.chips (s : State) : Nat := s.chipCount.toNat

/-- The number of logical channels, `CHIP_COUNT * 4` (spec/00_scope.md R8, spec/42_configuration.md R109). -/
def State.channels (s : State) : Nat := s.chips * Config.channelsPerChip

/-- The chip index of a logical channel (spec/41_addressing_and_transactions.md R90). -/
def chipOf (c : Nat) : Nat := c / Config.channelsPerChip

/-- The local offset of a logical channel (spec/41_addressing_and_transactions.md R90). -/
def offsetOf (c : Nat) : Nat := c % Config.channelsPerChip

/-- `ADDR_OF` (spec/41_addressing_and_transactions.md R92). -/
def addrOf (offset : Nat) : ChannelAddr :=
  match offset with
  | 0 => .chA
  | 1 => .chB
  | 2 => .chC
  | _ => .chD

/-- `resolve` (spec/41_addressing_and_transactions.md R91). -/
def resolve : Target → ChipSel × ChannelAddr
  | .channel c => (.chip (chipOf c), addrOf (offsetOf c))
  | .all => (.allChips, .all)

/-- `check_channel` (spec/41_addressing_and_transactions.md R94): the fault to raise, if any. -/
def checkChannel (c : Nat) (s : State) : FaultCode :=
  if s.channels ≤ c then .channelOutOfRange else .none

/-- `check_chip` (spec/41_addressing_and_transactions.md R94): the fault to raise, if any. -/
def checkChip (k : Nat) (s : State) : FaultCode :=
  if s.chips ≤ k then .chipIndexOutOfRange else .none

/-- The bounds check of a target; `All` is never checked (spec/60_exceptions.md R130). -/
def checkTarget (t : Target) (s : State) : FaultCode :=
  match t with
  | .channel c => checkChannel c s
  | .all => .none

/-- The bounds check of a chip selector (spec/41_addressing_and_transactions.md R93, R94). -/
def checkSel (sel : ChipSel) (s : State) : FaultCode :=
  match sel with
  | .chip k => checkChip k s
  | .allChips => .none

/-- The chip selector of a load, from its argument: one chip or all chips (spec/43_output.md R117). -/
def RowArg.sel (arg : RowArg) : ChipSel := if arg.all then .allChips else .chip arg.chip

/-- The target a channel address and a chip index name: ALL is all channels of all chips, whatever the index, and A to D
are that channel of that chip. So a datagram too has only the two forms of spec/41_addressing_and_transactions.md R105
(spec/90_conflicts.md C6). -/
def targetOf (addr : ChannelAddr) (chip : Nat) : Target :=
  match addr with
  | .all => .all
  | .chA | .chB | .chC | .chD => .channel (chip * Config.channelsPerChip + addr.code)

/-! ### Ranges and values -/

/-- The polarity of an output range (spec/30_encoding.md R60). -/
def rangePolarity : OutputRange → Polarity
  | .uni5V | .uni10V | .uni10V8 => .unipolar
  | .bip5V | .bip10V | .bip10V8 => .bipolar

/-- The range a 3-bit operand names; 6 and 7 are unrecognized and act as UNI_5V (spec/43_output.md R110). -/
def rangeOfOperand (code : BitVec 3) : OutputRange :=
  match code.toNat with
  | 0 => .uni5V
  | 1 => .uni10V
  | 2 => .uni10V8
  | 3 => .bip5V
  | 4 => .bip10V
  | 5 => .bip10V8
  | _ => .uni5V

/-- `range_map` (spec/43_output.md R110): the polarity written and the range whose code is sent. -/
def rangeMap (code : BitVec 3) : Polarity × OutputRange :=
  (rangePolarity (rangeOfOperand code), rangeOfOperand code)

/-- `N(RESOLUTION)` (spec/43_output.md R112). -/
def nativeWidth : Resolution → Nat
  | .r12 => 12
  | .r14 => 14
  | .r16 => 16

/-- `SHIFT(RESOLUTION)` (spec/43_output.md R112). -/
def payloadShift (r : Resolution) : Nat := 16 - nativeWidth r

/-- `scale` (spec/43_output.md R115): the exact shifted value, truncated to 16 bits, not clamped. -/
def scale (r : Resolution) (value : BitVec 32) : BitVec 16 :=
  BitVec.ofInt 16 (value.toInt * 2 ^ payloadShift r)

/-- The value MIN_VALUE returns (spec/43_output.md R113). -/
def minBound (r : Resolution) : Polarity → Int
  | .unipolar => 0
  | .bipolar => -(2 ^ (nativeWidth r - 1))

/-- The value MAX_VALUE returns (spec/43_output.md R114); 65536 is the source's literal (spec/90_conflicts.md C4). -/
def maxBound (r : Resolution) : Polarity → Int
  | .unipolar => if r = .r16 then 65536 else 2 ^ nativeWidth r - 1
  | .bipolar => 2 ^ (nativeWidth r - 1) - 1

end Sys2Proof.Machine
end

