-- ==== Sys2Proof/Machine/Flags.lean ====
section
/-! DEFINITION. The block has no flags or condition codes (spec/10_state.md R15). What stands here is the one test of
single bits the spec gives: the status bits of a power-control payload (spec/44_status.md R118, spec/30_encoding.md
R61), and the packed view of the configuration (spec/10_state.md R23). -/

namespace Sys2Proof.Machine

/-- `PU(o)`, the powered-up bit of local offset `o`. -/
def puBit (o : Nat) : Nat := o

/-- `PU_REF`, the reference powered-up bit. -/
def puRefBit : Nat := 4

/-- `TSD`, the thermal-shutdown bit. -/
def tsdBit : Nat := 5

/-- `OC(o)`, the over-current bit of local offset `o`. -/
def ocBit (o : Nat) : Nat := 7 + o

/-- The test of one bit of a reply payload. It never fails (spec/44_status.md R123). -/
def statusBit (payload : BitVec 16) (bit : Nat) : Bool := payload.getLsbD bit

/-- The code of `RESOLUTION` (spec/10_state.md R19). -/
def Resolution.code : Resolution → BitVec 2
  | .r12 => 0
  | .r14 => 1
  | .r16 => 2

/-- The code of `POLARITY` (spec/10_state.md R16). -/
def Polarity.code : Polarity → BitVec 1
  | .unipolar => 0
  | .bipolar => 1

/-- The code of `FAULT` (spec/60_exceptions.md R124). -/
def FaultCode.code : FaultCode → BitVec 4
  | .none => 0
  | .illegalOperation => 1
  | .notConfigured => 2
  | .alreadyConfigured => 3
  | .invalidResolution => 4
  | .channelOutOfRange => 5
  | .chipIndexOutOfRange => 6

/-- The register view `CFG` (spec/10_state.md R23); its reserved bits are 0. -/
def State.cfg (s : State) : BitVec 32 :=
  (0#20 ++ s.faultCode.code ++ 0#1 ++ s.polarity.code ++ s.resolution.code ++ s.chipCount ++ BitVec.ofBool s.cfgValid : BitVec 32)

end Sys2Proof.Machine
end

