-- ==== Sys2Proof/Machine/Ops.lean ====
section
/-! DEFINITION. The shared operations: the result port, raising a fault and the reset that is the only way out of one,
events, pins, the byte transport, frames, the chip-select-framed transaction, the register write and the two-phase
read. -/

namespace Sys2Proof.Machine

/-! ### Results, faults and reset -/

/-- `return`: the result port takes a kind and a value (spec/00_scope.md R10, spec/30_encoding.md R79). -/
def State.answer (s : State) (kind : ResultKind) (res : Word) : State := { s with result := ⟨kind, res⟩ }

/-- `raise Fault(code)`: `FAULT` and the result port, and nothing else (spec/60_exceptions.md R125, R134). -/
def State.raise (s : State) (code : FaultCode) : State :=
  { s with faultCode := code, result := ⟨.fault, 0⟩ }

/-- The reset signal taken: every field of spec/10_state.md R34, and no event (spec/70_reset_and_hazards.md R145, R146).
There is no return from a fault but this (spec/60_exceptions.md R135). The fields that R34 leaves without a value go
back to the values `State.reset` names (logs 2, 3, 4); the ports keep what they hold (logs 5, 6, 12). -/
def State.takeReset (s : State) : State :=
  { s with
    cfgValid := State.reset.cfgValid
    chipCount := State.reset.chipCount
    resolution := State.reset.resolution
    polarity := State.reset.polarity
    faultCode := State.reset.faultCode
    csLvl := State.reset.csLvl
    ldacLvl := State.reset.ldacLvl
    clrLvl := State.reset.clrLvl
    resetLine := false }

/-- The first check of every operation: a faulted block is stuck (spec/60_exceptions.md R129, R132 item 1). -/
def whenRunning (s : State) (k : Outcome) : Outcome :=
  if s.faultCode = .none then k else .fault .stuck

/-- The check of every operation that reads the configuration (spec/60_exceptions.md R127). -/
def whenConfigured (s : State) (k : Outcome) : Outcome :=
  whenRunning s (if s.cfgValid then k else .next (s.raise .notConfigured))

/-- A bounds check before any event (spec/41_addressing_and_transactions.md R94, spec/60_exceptions.md R133). -/
def unlessFault (code : FaultCode) (s : State) (k : Outcome) : Outcome :=
  if code = .none then k else .next (s.raise code)

/-! ### Events and pins -/

/-- `emit` (spec/00_scope.md R10). -/
def State.emit (s : State) (e : Event) : State := { s with trace := s.trace ++ [e] }

/-- The level a `PIN_WRITE` leaves on record (spec/10_state.md R22). -/
def Level.recorded : Level → PinLevel
  | .low => .low
  | .high => .high

/-- `emit PIN_WRITE(pin, level)` and the record of the level (spec/10_state.md R22). -/
def State.writePin (s : State) (pin : Pin) (l : Level) : State :=
  match pin with
  | .cs => { s.emit (.pinWrite .cs l) with csLvl := l.recorded }
  | .ldac => { s.emit (.pinWrite .ldac l) with ldacLvl := l.recorded }
  | .clr => { s.emit (.pinWrite .clr l) with clrLvl := l.recorded }

/-- `emit PIN_CFG(pin)`, then the pin driven HIGH (spec/42_configuration.md R106). -/
def State.setUpPin (s : State) (pin : Pin) : State := (s.emit (.pinCfg pin)).writePin pin .high

/-! ### The byte transport -/

/-- The byte the transport returns `i` transfers from now: an input as far as one is given, else the free value
(spec/20_memory.md R45; log 7). -/
def State.rxByte (s : State) (i : Nat) : Byte := s.replies.getD i (Config.oracleByte (s.xfers + i))

/-- The state after `Xfer(tx)` has received the next byte (spec/00_scope.md R10). -/
def State.xfer (s : State) (tx : Byte) : State :=
  { s.emit (.busXfer tx (s.rxByte 0)) with replies := s.replies.tail, xfers := s.xfers + 1 }

/-- The transfers of a frame, byte by byte in order: the bytes received and the state after. -/
def State.exchange (s : State) : List Byte → List Byte × State
  | [] => ([], s)
  | tx :: rest => (s.rxByte 0 :: ((s.xfer tx).exchange rest).1, ((s.xfer tx).exchange rest).2)

/-- What a transaction does before its first byte (spec/41_addressing_and_transactions.md R97). -/
def State.busOpen (s : State) : State :=
  (s.emit (.busBegin Config.spiClockHz Config.bitOrder Config.spiMode)).writePin .cs .low

/-- What a transaction does after its last byte (spec/41_addressing_and_transactions.md R97). -/
def State.busClose (s : State) : State := (s.writePin .cs .high).emit .busEnd

/-- `transaction(frame)` (spec/41_addressing_and_transactions.md R97): the bytes received and the state after. -/
def State.transaction (s : State) (frame : List Byte) : List Byte × State :=
  ((s.busOpen.exchange frame).1, (s.busOpen.exchange frame).2.busClose)

/-! ### Frames -/

/-- Whether a selector names chip `k` (spec/41_addressing_and_transactions.md R95). -/
def ChipSel.names (sel : ChipSel) (k : Nat) : Bool := decide (sel = .allChips ∨ sel = .chip k)

/-- `build_frame(sel, w)` (spec/41_addressing_and_transactions.md R95): slot `j` reaches chip `CHIP_COUNT - 1 - j`
(R96), and a chip that is not named gets DG_NOP. -/
def State.buildFrame (s : State) (sel : ChipSel) (w : Word) : List Byte :=
  (List.range s.chips).flatMap fun j =>
    toBytes s.datagramBytes (if sel.names (s.chips - 1 - j) then w else nopWord)

/-- `reply_of(rx, k)` (spec/41_addressing_and_transactions.md R99). -/
def State.replyOf (s : State) (rx : List Byte) (k : Nat) : BitVec 16 :=
  (unpack (fromBytes ((rx.drop ((s.chips - 1 - k) * s.datagramBytes.toNat)).take s.datagramBytes.toNat))).payload

/-- `write_reg(sel, w)` (spec/41_addressing_and_transactions.md R100): one transaction, its received bytes discarded. -/
def State.writeReg (s : State) (sel : ChipSel) (w : Word) : State := (s.transaction (s.buildFrame sel w)).2

/-- `read_power_control(k)` (spec/41_addressing_and_transactions.md R101): the reply payload and the state after. -/
def State.readPowerControl (s : State) (k : Nat) : BitVec 16 × State :=
  let s1 := s.writeReg (.chip k) powerReadWord
  let rx := s1.transaction (s1.buildFrame (.chip k) nopWord)
  (rx.2.replyOf rx.1 k, rx.2)

end Sys2Proof.Machine
end

