-- ==== Sys2Proof/Machine/Codec.lean ====
section
/-! DEFINITION. The codec operations (spec/40_codec.md). They are legal before CONFIGURE (spec/60_exceptions.md R127). -/

namespace Sys2Proof.Machine

/-- The bits of a word that go on the wire, `w[8*DATAGRAM_BYTES-1 : 0]`, zero-extended (spec/30_encoding.md R79). -/
def wireBits (db : DatagramBytes) (w : Word) : Word := fromBytes (toBytes db w)

/-- The result of a DECODE: the fields re-packed with PAD and RSV cleared (spec/30_encoding.md R79). -/
def repack (d : Datagram) : Word := pack d.dir.toNat d.reg.toNat d.addr.toNat d.payload.toNat

/-- ENCODE (spec/40_codec.md R82). -/
def execCodecEncode (dir : BitVec 1) (reg addr : BitVec 3) (payload : BitVec 32) (s : State) : Outcome :=
  whenRunning s (.next (s.answer .bytes
    (wireBits s.datagramBytes (pack dir.toNat reg.toNat addr.toNat payload.toNat))))

/-- DECODE (spec/40_codec.md R85). -/
def execCodecDecode (received : BitVec 32) (s : State) : Outcome :=
  whenRunning s (.next (s.answer .fields
    (repack (unpack (fromBytes (receivedBytes s.datagramBytes received))))))

end Sys2Proof.Machine
end

