-- ==== Sys2Proof/Machine/Configuration.lean ====
section
/-! DEFINITION. The configuration operations (spec/42_configuration.md). -/

namespace Sys2Proof.Machine

/-- The configuration CONFIGURE records before its first event (spec/42_configuration.md R106). -/
def State.configured (s : State) (chipCount : Nat) (r : Resolution) : State :=
  { s with chipCount := clampChipCount chipCount, resolution := r, polarity := .unipolar, cfgValid := true }

/-- The three pins configured and driven HIGH, in the order of spec/42_configuration.md R106. -/
def State.setUpPins (s : State) : State := ((s.setUpPin .cs).setUpPin .ldac).setUpPin .clr

/-- CONFIGURE (spec/42_configuration.md R106). -/
def execConfigure (chipCount : Nat) (res : BitVec 2) (s : State) : Outcome :=
  whenRunning s <|
    if s.cfgValid then .next (s.raise .alreadyConfigured)
    else match Resolution.ofCode res with
      | none => .next (s.raise .invalidResolution)
      | some r => .next (((s.configured chipCount r).setUpPins.writeReg .allChips powerUpWord).answer .none 0)

/-- CHANNEL_COUNT (spec/42_configuration.md R109). -/
def execChannelCount (s : State) : Outcome :=
  whenConfigured s (.next (s.answer .uint (BitVec.ofNat 32 s.channels)))

end Sys2Proof.Machine
end

