-- ==== Sys2Proof/Machine/Datagrams.lean ====
section
/-! DEFINITION. The wire datagrams as operations of the block's own transaction sequencer: each is one register write
(spec/41_addressing_and_transactions.md R100) with the word of spec/30_encoding.md R63 and the chip selector that the
rule building the datagram gives it, from the argument given with the datagram. Nothing is kept from one datagram to the
next (spec/20_memory.md R51). The host cannot issue one; that each is an operation of its own, and its check for a
configuration, is the model's choice (log 13). A register write returns nothing, so the result port keeps what it
holds. -/

namespace Sys2Proof.Machine

/-- The target of a datagram row with a channel address, for the chip the sequencer was given. -/
def State.rowTarget (s : State) (addr : ChannelAddr) : Target := targetOf addr s.rowArg.chip

/-- DG_DAC_WRITE(a, p): the first write of spec/43_output.md R116, to the target's chips. -/
def execDgDacWrite (addr : ChannelAddr) (payload : BitVec 16) (s : State) : Outcome :=
  whenConfigured s <| unlessFault (checkTarget (s.rowTarget addr) s) s <|
    .next (s.writeReg (resolve (s.rowTarget addr)).1 (dacWriteWord (resolve (s.rowTarget addr)).2 payload))

/-- DG_RANGE_WRITE(a, r): the write of spec/43_output.md R111, to the target's chips. -/
def execDgRangeWrite (addr : ChannelAddr) (range : OutputRange) (s : State) : Outcome :=
  whenConfigured s <| unlessFault (checkTarget (s.rowTarget addr) s) s <|
    .next (s.writeReg (resolve (s.rowTarget addr)).1 (rangeWriteWord (resolve (s.rowTarget addr)).2 range))

/-- DG_POWER_UP: its chip selector is AllChips (spec/42_configuration.md R108). -/
def execDgPowerUp (s : State) : Outcome := whenConfigured s (.next (s.writeReg .allChips powerUpWord))

/-- DG_NOP: every slot is DG_NOP, whatever the chip (spec/41_addressing_and_transactions.md R101). -/
def execDgNop (s : State) : Outcome := whenConfigured s (.next (s.writeReg .allChips nopWord))

/-- DG_LOAD: to one chip or to every chip, as the argument says, for the selector is that of the load's DAC write
(spec/43_output.md R117). -/
def execDgLoad (s : State) : Outcome :=
  whenConfigured s <| unlessFault (checkSel s.rowArg.sel s) s <| .next (s.writeReg s.rowArg.sel loadWord)

/-- DG_POWER_READ: the first write of a two-phase read, to one chip (spec/41_addressing_and_transactions.md R101). -/
def execDgPowerRead (s : State) : Outcome :=
  whenConfigured s <| unlessFault (checkChip s.rowArg.chip s) s <|
    .next (s.writeReg (.chip s.rowArg.chip) powerReadWord)

end Sys2Proof.Machine
end

