-- ==== Sys2Proof/Machine/Exceptions.lean ====
section
/-! DEFINITION. The host words that spell no operation (spec/30_encoding.md R75, spec/60_exceptions.md R126). -/

namespace Sys2Proof.Machine

/-- ILLEGAL_OPERATION: the fault, whatever the OP code; A and B are not read (spec/60_exceptions.md R126). -/
def execIllegalOperation (_op : BitVec 8) (s : State) : Outcome :=
  whenRunning s (.next (s.raise .illegalOperation))

end Sys2Proof.Machine
end

