-- ==== Sys2Proof/Machine/Output.lean ====
section
/-! DEFINITION. The output range and value operations (spec/43_output.md). -/

namespace Sys2Proof.Machine

/-- SET_OUTPUT_RANGE (spec/43_output.md R111): the polarity is written whatever the target (spec/10_state.md R32). -/
def execSetOutputRange (t : Target) (range : BitVec 3) (s : State) : Outcome :=
  whenConfigured s <| unlessFault (checkTarget t s) s <|
    .next ((({ s with polarity := (rangeMap range).1 } : State).writeReg (resolve t).1
      (rangeWriteWord (resolve t).2 (rangeMap range).2)).answer .none 0)

/-- MIN_VALUE (spec/43_output.md R113). -/
def execMinValue (s : State) : Outcome :=
  whenConfigured s (.next (s.answer .int (BitVec.ofInt 32 (minBound s.resolution s.polarity))))

/-- MAX_VALUE (spec/43_output.md R114). -/
def execMaxValue (s : State) : Outcome :=
  whenConfigured s (.next (s.answer .int (BitVec.ofInt 32 (maxBound s.resolution s.polarity))))

/-- WRITE_VALUE (spec/43_output.md R116): the value, then the load to the same chips (R117). -/
def execWriteValue (t : Target) (value : BitVec 32) (s : State) : Outcome :=
  whenConfigured s <| unlessFault (checkTarget t s) s <|
    .next (((s.writeReg (resolve t).1 (dacWriteWord (resolve t).2 (scale s.resolution value))).writeReg
      (resolve t).1 loadWord).answer .none 0)

end Sys2Proof.Machine
end

