-- ==== Sys2Proof/Machine/Status.lean ====
section
/-! DEFINITION. The status operations (spec/44_status.md): a two-phase read of one chip's power-control register and the
test of one bit of the reply, which is never checked (spec/41_addressing_and_transactions.md R103). -/

namespace Sys2Proof.Machine

/-- The read of chip `k` and the test of one bit, answered as BOOL (spec/44_status.md R118, spec/30_encoding.md R79). -/
def State.testStatus (s : State) (k bit : Nat) : State :=
  let r := s.readPowerControl k
  r.2.answer .bool ((BitVec.ofBool (statusBit r.1 bit)).setWidth 32)

/-- CHANNEL_POWERED_UP (spec/44_status.md R119). Index 255 is a channel here, not a broadcast. -/
def execChannelPoweredUp (channel : Nat) (s : State) : Outcome :=
  whenConfigured s <| unlessFault (checkChannel channel s) s <|
    .next (s.testStatus (chipOf channel) (puBit (offsetOf channel)))

/-- REFERENCE_POWERED_UP (spec/44_status.md R120). -/
def execReferencePoweredUp (chip : Nat) (s : State) : Outcome :=
  whenConfigured s <| unlessFault (checkChip chip s) s <| .next (s.testStatus chip puRefBit)

/-- THERMAL_SHUTDOWN (spec/44_status.md R121). -/
def execThermalShutdown (chip : Nat) (s : State) : Outcome :=
  whenConfigured s <| unlessFault (checkChip chip s) s <| .next (s.testStatus chip tsdBit)

/-- CHANNEL_OVER_CURRENT (spec/44_status.md R122). -/
def execChannelOverCurrent (channel : Nat) (s : State) : Outcome :=
  whenConfigured s <| unlessFault (checkChannel channel s) s <|
    .next (s.testStatus (chipOf channel) (ocBit (offsetOf channel)))

end Sys2Proof.Machine
end

