-- ==== Sys2Proof/Machine/Dispatch.lean ====
section
/-! DEFINITION. One arm per constructor of `Instr`. -/

namespace Sys2Proof.Machine

def exec (i : Instr) (s : State) : Host.Outcome State Fault Refusal :=
  match i with
  | .configure n res => Sys2Proof.Machine.execConfigure n res s
  | .channelCount => Sys2Proof.Machine.execChannelCount s
  | .setOutputRange t range => Sys2Proof.Machine.execSetOutputRange t range s
  | .minValue => Sys2Proof.Machine.execMinValue s
  | .maxValue => Sys2Proof.Machine.execMaxValue s
  | .writeValue t value => Sys2Proof.Machine.execWriteValue t value s
  | .channelPoweredUp channel => Sys2Proof.Machine.execChannelPoweredUp channel s
  | .referencePoweredUp chip => Sys2Proof.Machine.execReferencePoweredUp chip s
  | .thermalShutdown chip => Sys2Proof.Machine.execThermalShutdown chip s
  | .channelOverCurrent channel => Sys2Proof.Machine.execChannelOverCurrent channel s
  | .codecEncode dir reg addr payload => Sys2Proof.Machine.execCodecEncode dir reg addr payload s
  | .codecDecode received => Sys2Proof.Machine.execCodecDecode received s
  | .illegalOperation op => Sys2Proof.Machine.execIllegalOperation op s
  | .dgDacWrite addr payload => Sys2Proof.Machine.execDgDacWrite addr payload s
  | .dgRangeWrite addr range => Sys2Proof.Machine.execDgRangeWrite addr range s
  | .dgPowerUp => Sys2Proof.Machine.execDgPowerUp s
  | .dgNop => Sys2Proof.Machine.execDgNop s
  | .dgLoad => Sys2Proof.Machine.execDgLoad s
  | .dgPowerRead => Sys2Proof.Machine.execDgPowerRead s

end Sys2Proof.Machine
end

