-- ==== Sys2Proof/Machine/Fetch.lean ====
section
/-! DEFINITION. What the next step takes: the platform's reset signal, a waiting command, or nothing. The block fetches
no instructions (spec/10_state.md R14); the host issues one operation at a time (log 1). -/

namespace Sys2Proof.Machine

/-- What the next step is to do. -/
inductive Fetched where
  /-- The reset signal is up (spec/70_reset_and_hazards.md R145). -/
  | reset
  /-- No command waits (spec/70_reset_and_hazards.md R145: "After reset the block waits for a host command"). -/
  | idle
  /-- The sequencer was given a word that is no datagram the block sends (spec/30_encoding.md R64). -/
  | undecodable (why : DecodeError)
  /-- An operation, and the state in which it runs. -/
  | run (i : Instr) (s : State)
  deriving DecidableEq, Repr

/-- The word of a waiting command. -/
def Pending.word : Pending → TableWord
  | .command w => .host w
  | .datagram _ w => .wire w

/-- The argument in place once a command is taken: a datagram brings its own. A host command has none, and the field goes
back to what reset names, so that nothing of an earlier datagram stays (spec/20_memory.md R51; log 13). -/
def Pending.arg : Pending → RowArg
  | .command _ => State.reset.rowArg
  | .datagram arg _ => arg

/-- The state in which the first waiting command runs: it waits no longer, and its argument is in place. -/
def State.accept (s : State) (p : Pending) (rest : List Pending) : State :=
  { s with pending := rest, rowArg := p.arg }

/-- What the next step takes. Reset comes before any command (log 12). -/
def State.fetch (s : State) : Fetched :=
  if s.resetLine then .reset
  else match s.pending with
    | [] => .idle
    | p :: rest =>
      match decode p.word with
      | .ok i => .run i (s.accept p rest)
      | .error why => .undecodable why

/-- A step with nothing to run changes nothing; a faulted block takes no step at all (spec/60_exceptions.md R129). -/
def State.waitForCommand (s : State) : Outcome := whenRunning s (.next s)

/-- A step given no datagram the block sends: refused by name, unless the block is stuck. -/
def State.refuseDatagram (s : State) (why : DecodeError) : Outcome := whenRunning s (.refused (.neverSent why))

/-- `s` with a table word waiting as the next command and the reset signal down; a datagram comes with the argument that
`State.reset` names (logs 1, 13). -/
def State.issue (s : State) (nbits w : Nat) : State :=
  { s with
    resetLine := false
    pending :=
      (if nbits = 24 then .datagram State.reset.rowArg (BitVec.ofNat 24 w) else .command (BitVec.ofNat 48 w)) :: s.pending }

end Sys2Proof.Machine
end

