-- ==== Sys2Proof/Machine/Step.lean ====
section
/-! DEFINITION. One step of the machine: reset, one whole operation (spec/70_reset_and_hazards.md R157), or a wait. -/

namespace Sys2Proof.Machine

/-- One step. -/
def step (s : State) : Host.Outcome State Fault Refusal :=
  match s.fetch with
  | .reset => .next s.takeReset
  | .idle => s.waitForCommand
  | .undecodable why => s.refuseDatagram why
  | .run i s' => exec i s'

/-- `s` with the table's word waiting where the next step takes its command. -/
def State.withFetchWord (s : State) (nbits w : Nat) : State := s.issue nbits w

end Sys2Proof.Machine
end

