-- ==== Sys2Proof/Safety.lean ====
section
/-! DEFINITION. The terms claims are stated in: the invariant of spec/10_state.md R33, the shape of a trace and of what
lies on the wire, the events and the state a transaction leaves, and the fault each operation owes. They are written
from the rules' own words, beside the operations and not in terms of them. -/

namespace Sys2Proof.Machine

/-! ### The configuration -/

/-- spec/10_state.md R33, between operations: with `CFG_VALID = 1` the chip count is 1 to 4 and the three pins are HIGH
(`RESOLUTION` is one of three by its type). -/
def State.ConfigOk (s : State) : Prop :=
  s.cfgValid = true → 1 ≤ s.chips ∧ s.chips ≤ 4 ∧ s.csLvl = .high ∧ s.ldacLvl = .high ∧ s.clrLvl = .high

/-- `s` with other values in the three fields that hold no value before CONFIGURE (spec/10_state.md R17). -/
def State.withConfigFields (s : State) (n : BitVec 3) (r : Resolution) (p : Polarity) : State :=
  { s with chipCount := n, resolution := r, polarity := p }

/-- The state a fault leaves (spec/60_exceptions.md R125). -/
def State.faulted (s : State) (code : FaultCode) : State := { s with faultCode := code, result := ⟨.fault, 0⟩ }

/-! ### The trace -/

/-- Where the bus stands between two events (spec/41_addressing_and_transactions.md R97). -/
inductive BusPhase where
  | idle
  | owned
  | selected
  | released
  deriving DecidableEq, Repr

/-- The phase after an event, and none where the event may not stand: chip select goes LOW only inside a transaction,
bytes move only while it is LOW, and the load and clear pins are only ever driven HIGH
(spec/20_memory.md R38, R43, spec/41_addressing_and_transactions.md R97, spec/70_reset_and_hazards.md R150). -/
def BusPhase.after : BusPhase → Event → Option BusPhase
  | .idle, .pinCfg _ => some .idle
  | .idle, .pinWrite _ .high => some .idle
  | .idle, .busBegin _ .msbFirst _ => some .owned
  | .owned, .pinWrite .cs .low => some .selected
  | .selected, .busXfer _ _ => some .selected
  | .selected, .pinWrite .cs .high => some .released
  | .released, .busEnd => some .idle
  | _, _ => none

/-- The phase after a run of events. -/
def BusPhase.run : BusPhase → List Event → Option BusPhase
  | p, [] => some p
  | p, e :: es => (p.after e).bind fun q => q.run es

/-- Every transaction of the trace is closed, and nothing stands where it may not. -/
def WellFramed (trace : List Event) : Prop := BusPhase.run .idle trace = some .idle

/-- The bytes sent in each closed transaction, in order; `cur` are those of the one under way. -/
def txFramesFrom : List Byte → List Event → List (List Byte)
  | _, [] => []
  | _, .busBegin _ _ _ :: es => txFramesFrom [] es
  | cur, .busXfer tx _ :: es => txFramesFrom (cur ++ [tx]) es
  | cur, .busEnd :: es => cur :: txFramesFrom [] es
  | cur, .pinCfg _ :: es => txFramesFrom cur es
  | cur, .pinWrite _ _ :: es => txFramesFrom cur es

/-- The bytes sent in each transaction of a run of events. -/
def txFrames (events : List Event) : List (List Byte) := txFramesFrom [] events

/-- An event with the byte received blotted out: what the block itself put out. -/
def Event.sent : Event → Event
  | .busXfer tx _ => .busXfer tx 0
  | e => e

/-- The level last written to a pin in a run of events, and `before` if there is none (spec/10_state.md R22). -/
def lastLevel (pin : Pin) : PinLevel → List Event → PinLevel
  | before, [] => before
  | before, .pinWrite p .low :: es => lastLevel pin (if p = pin then .low else before) es
  | before, .pinWrite p .high :: es => lastLevel pin (if p = pin then .high else before) es
  | before, _ :: es => lastLevel pin before es

/-! ### The wire -/

/-- The six kinds of datagram, by the words of the table of spec/30_encoding.md R63. -/
def SentWord (w : Word) : Prop :=
  (∃ a p, a ≤ 4 ∧ p < 65536 ∧ w.toNat = a * 0x10000 + p) ∨
  (∃ a r, a ≤ 4 ∧ r ≤ 5 ∧ w.toNat = 0x080000 + a * 0x10000 + r) ∨
  w = 0x10001F#32 ∨ w = 0x180000#32 ∨ w = 0x1D0000#32 ∨ w = 0x900000#32

/-- The words that go to every chip: a DAC or range write of all channels, the power-up, the no-op and the load
(spec/41_addressing_and_transactions.md R105, spec/42_configuration.md R108, spec/43_output.md R117). -/
def BroadcastWord (w : Word) : Prop :=
  (∃ p, p < 65536 ∧ w.toNat = 0x040000 + p) ∨ (∃ r, r ≤ 5 ∧ w.toNat = 0x0C0000 + r) ∨
  w = 0x10001F#32 ∨ w = 0x180000#32 ∨ w = 0x1D0000#32

/-- The words that go to one chip: a DAC or range write of one channel, the load and the read request
(spec/41_addressing_and_transactions.md R101, R105, spec/43_output.md R117). -/
def SingleWord (w : Word) : Prop :=
  (∃ a p, a ≤ 3 ∧ p < 65536 ∧ w.toNat = a * 0x10000 + p) ∨
  (∃ a r, a ≤ 3 ∧ r ≤ 5 ∧ w.toNat = 0x080000 + a * 0x10000 + r) ∨
  w = 0x1D0000#32 ∨ w = 0x900000#32

/-- A frame of `n` slots, each a datagram of R63 (spec/30_encoding.md R65, spec/41_addressing_and_transactions.md R95). -/
def FrameOk (n : Nat) (db : DatagramBytes) (frame : List Byte) : Prop :=
  ∃ ws : List Word, ws.length = n ∧ (∀ w ∈ ws, SentWord w) ∧ frame = ws.flatMap (toBytes db)

/-- The frame that brings `w` to the chips of `named` and 0x180000 to the others. The chip furthest away comes first,
chip 0 last (spec/41_addressing_and_transactions.md R95, R96). -/
def frameTo (n : Nat) (db : DatagramBytes) (named : Nat → Bool) (w : Word) : List Byte :=
  (List.range n).reverse.flatMap fun k => toBytes db (if named k then w else 0x180000#32)

/-- A frame of one of the two forms of addressing: every chip gets a broadcast word, or one chip that is there gets a single-chip word
and the others 0x180000 (spec/41_addressing_and_transactions.md R105, spec/90_conflicts.md C6). -/
def TwoFormFrame (n : Nat) (db : DatagramBytes) (frame : List Byte) : Prop :=
  (∃ w, BroadcastWord w ∧ frame = frameTo n db (fun _ => true) w) ∨
  (∃ k w, k < n ∧ SingleWord w ∧ frame = frameTo n db (fun k' => decide (k' = k)) w)

/-- A frame for one chip, in the state's configuration. -/
def State.frameToChip (s : State) (k : Nat) (w : Word) : List Byte :=
  frameTo s.chips s.datagramBytes (fun k' => decide (k' = k)) w

/-- A frame for every chip, in the state's configuration. -/
def State.frameToAll (s : State) (w : Word) : List Byte :=
  frameTo s.chips s.datagramBytes (fun _ => true) w

/-- A frame for the chips of a target: the chip `c / 4`, or every chip (spec/41_addressing_and_transactions.md R91). -/
def State.frameToTarget (s : State) (t : Target) (w : Word) : List Byte :=
  match t with
  | .channel c => s.frameToChip (c / 4) w
  | .all => s.frameToAll w

/-- The ADDR code of a target: `c % 4` for channels A to D, 4 for all (spec/30_encoding.md R56, R72). -/
def targetAddr : Target → Nat
  | .channel c => c % 4
  | .all => 4

/-- A target names a channel of the configuration, or all of them (spec/41_addressing_and_transactions.md R90). -/
def State.hasTarget (s : State) : Target → Prop
  | .channel c => c < s.chips * 4
  | .all => True

/-- A chip selector names a chip of the configuration, or all of them (spec/41_addressing_and_transactions.md R93). -/
def State.hasSel (s : State) : ChipSel → Prop
  | .chip k => k < s.chips
  | .allChips => True

/-- The chips a datagram with a channel address goes to: every chip for ALL, else the chip of its argument
(spec/41_addressing_and_transactions.md R91, R105). -/
def State.rowSel (s : State) (a : ChannelAddr) : ChipSel := if a = .all then .allChips else .chip s.rowArg.chip

/-- The chips a load goes to: every chip, or the chip of its argument (spec/43_output.md R117). -/
def State.rowLoadSel (s : State) : ChipSel := if s.rowArg.all then .allChips else .chip s.rowArg.chip

/-- A frame for the chips of a selector. -/
def State.frameToSel (s : State) (sel : ChipSel) (w : Word) : List Byte :=
  match sel with
  | .chip k => s.frameToChip k w
  | .allChips => s.frameToAll w

/-- The next `n` bytes the transport returns (spec/20_memory.md R45). -/
def State.received (s : State) (n : Nat) : List Byte := (List.range n).map s.rxByte

/-- The events of a transaction that sends `tx` and receives `rx` (spec/41_addressing_and_transactions.md R97). -/
def transactionEvents (tx rx : List Byte) : List Event :=
  [.busBegin Config.spiClockHz .msbFirst Config.spiMode, .pinWrite .cs .low] ++
    (List.zipWith Event.busXfer tx rx ++ [.pinWrite .cs .high, .busEnd])

/-- What a transaction that sends `tx` leaves, and nothing else: its events, chip select HIGH, and the bytes it
received used up (spec/41_addressing_and_transactions.md R97, R98). -/
def State.afterTransaction (s : State) (tx : List Byte) : State :=
  { s with
    csLvl := .high
    trace := s.trace ++ transactionEvents tx (s.received tx.length)
    replies := s.replies.drop tx.length
    xfers := s.xfers + tx.length }

/-- The payload of the reply of chip `k` in a two-phase read that starts now: the two low bytes of the slot
`CHIP_COUNT - 1 - k` of the second transaction (spec/41_addressing_and_transactions.md R99, R101). -/
def State.replyPayload (s : State) (k : Nat) : BitVec 16 :=
  let b := s.datagramBytes.toNat
  let slot := s.chips * b + (s.chips - 1 - k) * b
  (s.rxByte (slot + (b - 2)) ++ s.rxByte (slot + (b - 1)) : BitVec 16)

/-- What a two-phase read of chip `k` leaves: 0x900000 to that chip, then 0x180000 to every chip
(spec/41_addressing_and_transactions.md R101). -/
def State.afterRead (s : State) (k : Nat) : State :=
  (s.afterTransaction (s.frameToChip k 0x900000#32)).afterTransaction (s.frameToAll 0x180000#32)

/-- What a status operation leaves that tests one bit of the reply of chip `k` (spec/44_status.md R118). -/
def State.afterStatus (s : State) (k bit : Nat) : State :=
  { s.afterRead k with result := ⟨.bool, if (s.replyPayload k).getLsbD bit then 1 else 0⟩ }

/-! ### Faults -/

/-- Whether an operation is a host command, and not a datagram of the sequencer (spec/30_encoding.md R70, R75). -/
def isHostCommand : Instr → Bool
  | .dgDacWrite _ _ | .dgRangeWrite _ _ | .dgPowerUp | .dgNop | .dgLoad | .dgPowerRead => false
  | _ => true

/-- Whether an operation is one of the four status operations (spec/44_status.md). -/
def isStatusOperation : Instr → Bool
  | .channelPoweredUp _ | .referencePoweredUp _ | .thermalShutdown _ | .channelOverCurrent _ => true
  | _ => false

/-- The chip a status operation reads (spec/44_status.md R119 to R122). -/
def statusChip : Instr → Option Nat
  | .channelPoweredUp c | .channelOverCurrent c => some (c / 4)
  | .referencePoweredUp k | .thermalShutdown k => some k
  | _ => none

/-- The fault a host command owes a block that has none: the first cause in the order of spec/60_exceptions.md R132,
with the causes of R124. -/
def faultDue (s : State) : Instr → FaultCode
  | .illegalOperation _ => .illegalOperation
  | .codecEncode _ _ _ _ => .none
  | .codecDecode _ => .none
  | .configure _ res => if s.cfgValid then .alreadyConfigured else if res = 3#2 then .invalidResolution else .none
  | .setOutputRange (.channel c) _ | .writeValue (.channel c) _ | .channelPoweredUp c | .channelOverCurrent c =>
    if !s.cfgValid then .notConfigured else if s.chips * 4 ≤ c then .channelOutOfRange else .none
  | .referencePoweredUp k | .thermalShutdown k =>
    if !s.cfgValid then .notConfigured else if s.chips ≤ k then .chipIndexOutOfRange else .none
  | _ => if !s.cfgValid then .notConfigured else .none

/-- How many transactions an operation that completes makes (spec/20_memory.md R44). -/
def transactionCount : Instr → Nat
  | .configure _ _ | .setOutputRange _ _ => 1
  | .writeValue _ _ => 2
  | .channelPoweredUp _ | .referencePoweredUp _ | .thermalShutdown _ | .channelOverCurrent _ => 2
  | .dgDacWrite _ _ | .dgRangeWrite _ _ | .dgPowerUp | .dgNop | .dgLoad | .dgPowerRead => 1
  | _ => 0

/-- The kind of result a host command that completes returns (spec/10_state.md R27, spec/30_encoding.md R79). -/
def kindReturned : Instr → ResultKind
  | .channelCount => .uint
  | .minValue | .maxValue => .int
  | .channelPoweredUp _ | .referencePoweredUp _ | .thermalShutdown _ | .channelOverCurrent _ => .bool
  | .codecEncode _ _ _ _ => .bytes
  | .codecDecode _ => .fields
  | .illegalOperation _ => .fault
  | _ => .none

end Sys2Proof.Machine
end

