-- ==== Sys2Proof/Certificates/Slice0/Obligations.lean ====
section
/-! DEFINITION. The statements for the provers. Each docstring names the rule of spec/ it formalises, or says that it
rests on the model's own choice and names the log entry. -/

open Sys2Proof Sys2Proof.Machine

/-! ### Encoding and decoding -/

/-- Seven host words of the test vectors (spec/95_test_vectors.md C5, C8, R3, W2, S12, E9 and F2) and six datagrams that
their transactions send (W10, R7, C1, R1, W1 and S1) decode to the operations they stand for. -/
def Obligations.WordsOfTheTestVectorsDecode : Prop :=
  decodeTableWord 48 0x010300000002 = some (.configure 3 2) ∧
  decodeTableWord 48 0x020000000000 = some .channelCount ∧
  decodeTableWord 48 0x03FF00000005 = some (.setOutputRange .all 5) ∧
  decodeTableWord 48 0x060100001000 = some (.writeValue (.channel 1) 0x1000) ∧
  decodeTableWord 48 0x07FF00000000 = some (.channelPoweredUp 255) ∧
  decodeTableWord 48 0x0BBF0000FFFF = some (.codecEncode 1 7 7 0xFFFF) ∧
  decodeTableWord 48 0x0D1234567890 = some (.illegalOperation 0x0D) ∧
  decodeTableWord 24 0x048000 = some (.dgDacWrite .all 0x8000) ∧
  decodeTableWord 24 0x090004 = some (.dgRangeWrite .chB .bip10V) ∧
  decodeTableWord 24 0x10001F = some .dgPowerUp ∧
  decodeTableWord 24 0x180000 = some .dgNop ∧
  decodeTableWord 24 0x1D0000 = some .dgLoad ∧
  decodeTableWord 24 0x900000 = some .dgPowerRead

/-- The encoding of every well-formed operation decodes to that operation, with every operand at every value
(spec/30_encoding.md sections 2 and 3). -/
def Obligations.DecodeOfEncodeIsTheOperation : Prop :=
  ∀ i : Instr, i.wellFormed = true → decode (encode i) = .ok i

/-- Every host word decodes, and whatever decodes is well formed (spec/30_encoding.md section 3). -/
def Obligations.HostWordsDecodeToWellFormedOperations : Prop :=
  (∀ w : HostWord, ∃ i, decode (.host w) = .ok i) ∧
  (∀ (t : TableWord) (i : Instr), decode t = .ok i → i.wellFormed = true)

/-- A 24-bit word decodes to a datagram exactly when it is one of the words of the table of spec/30_encoding.md section
2, and the datagram it decodes to is encoded by that word alone. That every other word is rejected is the model's choice
(log 14). -/
def Obligations.WireWordsDecodeExactlyWhenTheBlockSendsThem : Prop :=
  ∀ w : DatagramWord,
    ((∃ i, decode (.wire w) = .ok i) ↔ SentWord (w.setWidth 32)) ∧
    (∀ i, decode (.wire w) = .ok i → encode i = .wire w)

/-- R76: the bits of A and B that R71 assigns to no operand do not matter to the operation, nor to what it does. -/
def Obligations.UnassignedHostBitsAreIgnored : Prop :=
  (∀ (op a a' : BitVec 8) (b b' : BitVec 32), op = 0x02 ∨ op = 0x04 ∨ op = 0x05 →
    decode (.host (hostWord op a b)) = decode (.host (hostWord op a' b'))) ∧
  (∀ (a : BitVec 8) (b b' : BitVec 32), b.extractLsb' 0 2 = b'.extractLsb' 0 2 →
    decode (.host (hostWord 0x01 a b)) = decode (.host (hostWord 0x01 a b'))) ∧
  (∀ (a : BitVec 8) (b b' : BitVec 32), b.extractLsb' 0 3 = b'.extractLsb' 0 3 →
    decode (.host (hostWord 0x03 a b)) = decode (.host (hostWord 0x03 a b'))) ∧
  (∀ (a a' : BitVec 8) (b : BitVec 32), (∀ i, i ≠ 6 → a.getLsbD i = a'.getLsbD i) →
    decode (.host (hostWord 0x0B a b)) = decode (.host (hostWord 0x0B a' b))) ∧
  (∀ (a a' : BitVec 8) (b : BitVec 32),
    decode (.host (hostWord 0x0C a b)) = decode (.host (hostWord 0x0C a' b))) ∧
  (∀ (b b' : BitVec 32) (s : State),
    (∀ i, i < 8 * s.datagramBytes.toNat → b.getLsbD i = b'.getLsbD i) →
    exec (.codecDecode b) s = exec (.codecDecode b') s) ∧
  (∀ (op a : BitVec 8) (b b' : BitVec 32), op = 0x07 ∨ op = 0x08 ∨ op = 0x09 ∨ op = 0x0A →
    decode (.host (hostWord op a b)) = decode (.host (hostWord op a b')))

/-- R75: a host word whose OP is 0x00 or 0x0D to 0xFF spells no operation; the block faults with ILLEGAL_OPERATION and
does nothing else. Every other OP spells one. -/
def Obligations.IllegalOpcodesFaultAndDoNothingElse : Prop :=
  (∀ w : HostWord, (w.extractLsb' 40 8).toNat = 0 ∨ 13 ≤ (w.extractLsb' 40 8).toNat →
    ∃ op, decode (.host w) = .ok (.illegalOperation op)) ∧
  (∀ w : HostWord, 1 ≤ (w.extractLsb' 40 8).toNat ∧ (w.extractLsb' 40 8).toNat ≤ 12 →
    ∀ op, decode (.host w) ≠ .ok (.illegalOperation op)) ∧
  (∀ (op : BitVec 8) (s : State), s.faultCode = .none →
    exec (.illegalOperation op) s = .next { s with faultCode := .illegalOperation, result := ⟨.fault, 0⟩ })

/-! ### The codec -/

/-- R86: `unpack(from_bytes(to_bytes(pack(dir, reg, addr, payload)))) = (dir, reg, addr, payload)` for every field in
its width, at 3 and at 4 bytes. -/
def Obligations.UnpackingPackedBytesGivesBackEveryField : Prop :=
  ∀ (db : DatagramBytes) (dir : BitVec 1) (reg addr : BitVec 3) (payload : BitVec 16),
    unpack (fromBytes (toBytes db (pack dir.toNat reg.toNat addr.toNat payload.toNat))) = ⟨dir, reg, addr, payload⟩

/-- R82: ENCODE answers the packed bytes, the payload masked to 16 bits, before CONFIGURE too; it changes the result
port alone, and it is stuck on a faulted block. -/
def Obligations.EncodeAnswersThePackedBytes : Prop :=
  ∀ (dir : BitVec 1) (reg addr : BitVec 3) (payload : BitVec 32) (s : State),
    (s.faultCode ≠ .none → exec (.codecEncode dir reg addr payload) s = .fault .stuck) ∧
    (s.faultCode = .none → exec (.codecEncode dir reg addr payload) s = .next { s with
      result := ⟨.bytes, BitVec.ofNat 32
        (dir.toNat * 2 ^ 23 + reg.toNat * 2 ^ 19 + addr.toNat * 2 ^ 16 + payload.toNat % 2 ^ 16)⟩ })

/-- R85: DECODE answers the received fields with PAD and RSV cleared, before CONFIGURE too; it changes the result port
alone, and it is stuck on a faulted block. -/
def Obligations.DecodeAnswersTheFieldsWithoutPadding : Prop :=
  ∀ (received : BitVec 32) (s : State),
    (s.faultCode ≠ .none → exec (.codecDecode received) s = .fault .stuck) ∧
    (s.faultCode = .none → exec (.codecDecode received) s = .next { s with
      result := ⟨.fields, received &&& 0x00BFFFFF#32⟩ })

/-! ### Configuration -/

/-- R106 and R107: CONFIGURE stops or faults as the rule lists, and otherwise records the configuration (the count
clamped to 1 when it is not 1 to 4), sets up and drives HIGH the three pins in order, and sends 0x10001F to every chip
in one transaction. Nothing else changes. -/
def Obligations.ConfigureRecordsSetsUpPinsAndPowersUp : Prop :=
  ∀ (n : Nat) (res : BitVec 2) (s : State),
    (s.faultCode ≠ .none → exec (.configure n res) s = .fault .stuck) ∧
    (s.faultCode = .none → s.cfgValid = true → exec (.configure n res) s = .next (s.faulted .alreadyConfigured)) ∧
    (s.faultCode = .none → s.cfgValid = false → res = 3#2 →
      exec (.configure n res) s = .next (s.faulted .invalidResolution)) ∧
    (∀ (r : Resolution) (m : Nat) (c : State),
      (res, r) ∈ [(0#2, Resolution.r12), (1#2, Resolution.r14), (2#2, Resolution.r16)] →
      ((n, m) ∈ [(1, 1), (2, 2), (3, 3), (4, 4)] ∨ ((n = 0 ∨ 5 ≤ n) ∧ m = 1)) →
      c = { s with
        cfgValid := true
        chipCount := BitVec.ofNat 3 m
        resolution := r
        polarity := .unipolar
        csLvl := .high
        ldacLvl := .high
        clrLvl := .high
        trace := s.trace ++ [.pinCfg .cs, .pinWrite .cs .high, .pinCfg .ldac, .pinWrite .ldac .high,
          .pinCfg .clr, .pinWrite .clr .high] } →
      s.faultCode = .none → s.cfgValid = false →
      exec (.configure n res) s =
        .next { c.afterTransaction (c.frameToAll 0x10001F#32) with result := ⟨.none, 0⟩ })

/-- R109: CHANNEL_COUNT answers four times the chip count and changes nothing but the result port. -/
def Obligations.ChannelCountAnswersFourPerChip : Prop :=
  ∀ s : State,
    (s.faultCode ≠ .none → exec .channelCount s = .fault .stuck) ∧
    (s.faultCode = .none → s.cfgValid = false → exec .channelCount s = .next (s.faulted .notConfigured)) ∧
    (s.faultCode = .none → s.cfgValid = true →
      exec .channelCount s = .next { s with result := ⟨.uint, BitVec.ofNat 32 (s.chipCount.toNat * 4)⟩ })

/-! ### Output ranges and values -/

/-- R111 with the table of R110: SET_OUTPUT_RANGE records the polarity of the range whatever the target, sends one
range datagram to the target's chips, and changes nothing else. Codes 6 and 7 act as code 0. -/
def Obligations.SetOutputRangeRecordsPolarityAndWritesTheRange : Prop :=
  ∀ (t : Target) (range : BitVec 3) (s : State),
    (s.faultCode ≠ .none → exec (.setOutputRange t range) s = .fault .stuck) ∧
    (s.faultCode = .none → s.cfgValid = false →
      exec (.setOutputRange t range) s = .next (s.faulted .notConfigured)) ∧
    (s.faultCode = .none → s.cfgValid = true → ¬ s.hasTarget t →
      exec (.setOutputRange t range) s = .next (s.faulted .channelOutOfRange)) ∧
    (∀ (p : Polarity) (code : Nat),
      [(Polarity.unipolar, 0), (.unipolar, 1), (.unipolar, 2), (.bipolar, 3), (.bipolar, 4), (.bipolar, 5),
        (.unipolar, 0), (.unipolar, 0)][range.toNat]? = some (p, code) →
      s.faultCode = .none → s.cfgValid = true → s.hasTarget t →
      exec (.setOutputRange t range) s = .next { s.afterTransaction
          (s.frameToTarget t (BitVec.ofNat 32 (0x080000 + targetAddr t * 0x10000 + code))) with
        polarity := p, result := ⟨.none, 0⟩ })

/-- R113: MIN_VALUE answers 0, or minus 2 to the N-1, and changes nothing but the result port. -/
def Obligations.MinValueAnswersTheLowestValue : Prop :=
  ∀ s : State,
    (s.faultCode ≠ .none → exec .minValue s = .fault .stuck) ∧
    (s.faultCode = .none → s.cfgValid = false → exec .minValue s = .next (s.faulted .notConfigured)) ∧
    (∀ v : Int,
      (s.resolution, s.polarity, v) ∈ [(Resolution.r12, Polarity.unipolar, (0 : Int)), (.r14, .unipolar, 0),
        (.r16, .unipolar, 0), (.r12, .bipolar, -2048), (.r14, .bipolar, -8192), (.r16, .bipolar, -32768)] →
      s.faultCode = .none → s.cfgValid = true →
      exec .minValue s = .next { s with result := ⟨.int, BitVec.ofInt 32 v⟩ })

/-- R114: MAX_VALUE answers the highest value, 65536 for 16 bits unipolar, and changes nothing but the result port. -/
def Obligations.MaxValueAnswersTheHighestValue : Prop :=
  ∀ s : State,
    (s.faultCode ≠ .none → exec .maxValue s = .fault .stuck) ∧
    (s.faultCode = .none → s.cfgValid = false → exec .maxValue s = .next (s.faulted .notConfigured)) ∧
    (∀ v : Int,
      (s.resolution, s.polarity, v) ∈ [(Resolution.r12, Polarity.unipolar, (4095 : Int)), (.r14, .unipolar, 16383),
        (.r16, .unipolar, 65536), (.r12, .bipolar, 2047), (.r14, .bipolar, 8191), (.r16, .bipolar, 32767)] →
      s.faultCode = .none → s.cfgValid = true →
      exec .maxValue s = .next { s with result := ⟨.int, BitVec.ofInt 32 v⟩ })

/-- R116 with R115 and R117: WRITE_VALUE sends the value, shifted left by 4, 2 or 0 and truncated to 16 bits, to the
target's chips in one transaction and 0x1D0000 to the same chips in a second. Nothing else changes. -/
def Obligations.WriteValueSendsTheScaledValueThenTheLoad : Prop :=
  ∀ (t : Target) (value : BitVec 32) (s : State),
    (s.faultCode ≠ .none → exec (.writeValue t value) s = .fault .stuck) ∧
    (s.faultCode = .none → s.cfgValid = false →
      exec (.writeValue t value) s = .next (s.faulted .notConfigured)) ∧
    (s.faultCode = .none → s.cfgValid = true → ¬ s.hasTarget t →
      exec (.writeValue t value) s = .next (s.faulted .channelOutOfRange)) ∧
    (∀ shift : Nat, (s.resolution, shift) ∈ [(Resolution.r12, 4), (.r14, 2), (.r16, 0)] →
      s.faultCode = .none → s.cfgValid = true → s.hasTarget t →
      exec (.writeValue t value) s = .next { (s.afterTransaction
          (s.frameToTarget t (BitVec.ofNat 32
            (targetAddr t * 0x10000 + (value.toInt * 2 ^ shift % 65536).toNat)))).afterTransaction
          (s.frameToTarget t 0x1D0000#32) with result := ⟨.none, 0⟩ })

/-- R152: at 16 bits unipolar MAX_VALUE answers 65536, and writing that value sends payload 0. -/
def Obligations.SixteenBitUnipolarMaximumIsSentAsZero : Prop :=
  ∀ (c : Nat) (s : State), s.faultCode = .none → s.cfgValid = true → s.resolution = .r16 → s.polarity = .unipolar →
    c < s.chips * 4 →
    ∃ t u, exec .maxValue s = .next t ∧ t.result = ⟨.int, 65536#32⟩ ∧
      exec (.writeValue (.channel c) t.result.res) t = .next u ∧
      txFrames (u.trace.drop s.trace.length) =
        [s.frameToChip (c / 4) (BitVec.ofNat 32 (c % 4 * 0x10000)), s.frameToChip (c / 4) 0x1D0000#32]

/-- The bounds answered after SET_OUTPUT_RANGE are those of the range it named, whatever its target: the bipolar ones for
codes 3 to 5 and the unipolar ones for every other code (spec/10_state.md section 5, spec/43_output.md sections 1 and 2,
spec/70_reset_and_hazards.md section 3). -/
def Obligations.LaterBoundsFollowTheLastRangeSet : Prop :=
  ∀ (t : Target) (range : BitVec 3) (s s1 : State), exec (.setOutputRange t range) s = .next s1 → s1.faultCode = .none →
    ∃ s2 s3 lo hi, exec .minValue s1 = .next s2 ∧ exec .maxValue s1 = .next s3 ∧
      s2.result = ⟨.int, BitVec.ofInt 32 lo⟩ ∧ s3.result = ⟨.int, BitVec.ofInt 32 hi⟩ ∧
      (s.resolution, lo, hi) ∈
        if 3 ≤ range.toNat ∧ range.toNat ≤ 5 then
          [(Resolution.r12, (-2048 : Int), (2047 : Int)), (.r14, -8192, 8191), (.r16, -32768, 32767)]
        else [(.r12, 0, 4095), (.r14, 0, 16383), (.r16, 0, 65536)]

/-! ### Channels, chips and frames -/

/-- R91: field A names a channel, or broadcast when it is 0xFF. A channel resolves to chip `c / 4` and the address of
`c % 4`, and broadcast to every chip and 0b100. -/
def Obligations.TargetsResolveToChipAndAddress : Prop :=
  (∀ a : BitVec 8, decodeTarget a = if a.toNat = 255 then .all else .channel a.toNat) ∧
  (∀ c : Nat, (resolve (.channel c)).1 = .chip (c / 4) ∧ (resolve (.channel c)).2.code = c % 4) ∧
  (resolve .all).1 = .allChips ∧ (resolve .all).2.code = 4

/-- R95 with R96: slot `j` of a frame holds the datagram when the selector names chip `CHIP_COUNT - 1 - j`, and DG_NOP
otherwise, and the frame has one slot per chip. -/
def Obligations.FramesHoldOneSlotPerChipFurthestFirst : Prop :=
  ∀ (s : State) (sel : ChipSel) (w : Word),
    (s.buildFrame sel w).length = s.chips * s.datagramBytes.toNat ∧
    ∀ j, j < s.chips →
      ((s.buildFrame sel w).drop (j * s.datagramBytes.toNat)).take s.datagramBytes.toNat =
        toBytes s.datagramBytes (if sel = .allChips ∨ sel = .chip (s.chips - 1 - j) then w else 0x180000#32)

/-! ### Status -/

/-- R119: CHANNEL_POWERED_UP tests bit `c % 4` of the reply of chip `c / 4`. -/
def Obligations.ChannelPoweredUpTestsItsPowerBit : Prop :=
  ∀ (c : Nat) (s : State),
    (s.faultCode ≠ .none → exec (.channelPoweredUp c) s = .fault .stuck) ∧
    (s.faultCode = .none → s.cfgValid = false → exec (.channelPoweredUp c) s = .next (s.faulted .notConfigured)) ∧
    (s.faultCode = .none → s.cfgValid = true → s.chips * 4 ≤ c →
      exec (.channelPoweredUp c) s = .next (s.faulted .channelOutOfRange)) ∧
    (s.faultCode = .none → s.cfgValid = true → c < s.chips * 4 →
      exec (.channelPoweredUp c) s = .next (s.afterStatus (c / 4) (c % 4)))

/-- R120: REFERENCE_POWERED_UP tests bit 4 of the reply of chip `k`. -/
def Obligations.ReferencePoweredUpTestsTheReferenceBit : Prop :=
  ∀ (k : Nat) (s : State),
    (s.faultCode ≠ .none → exec (.referencePoweredUp k) s = .fault .stuck) ∧
    (s.faultCode = .none → s.cfgValid = false → exec (.referencePoweredUp k) s = .next (s.faulted .notConfigured)) ∧
    (s.faultCode = .none → s.cfgValid = true → s.chips ≤ k →
      exec (.referencePoweredUp k) s = .next (s.faulted .chipIndexOutOfRange)) ∧
    (s.faultCode = .none → s.cfgValid = true → k < s.chips →
      exec (.referencePoweredUp k) s = .next (s.afterStatus k 4))

/-- R121: THERMAL_SHUTDOWN tests bit 5 of the reply of chip `k`. -/
def Obligations.ThermalShutdownTestsTheThermalBit : Prop :=
  ∀ (k : Nat) (s : State),
    (s.faultCode ≠ .none → exec (.thermalShutdown k) s = .fault .stuck) ∧
    (s.faultCode = .none → s.cfgValid = false → exec (.thermalShutdown k) s = .next (s.faulted .notConfigured)) ∧
    (s.faultCode = .none → s.cfgValid = true → s.chips ≤ k →
      exec (.thermalShutdown k) s = .next (s.faulted .chipIndexOutOfRange)) ∧
    (s.faultCode = .none → s.cfgValid = true → k < s.chips →
      exec (.thermalShutdown k) s = .next (s.afterStatus k 5))

/-- R122: CHANNEL_OVER_CURRENT tests bit `7 + c % 4` of the reply of chip `c / 4`. -/
def Obligations.ChannelOverCurrentTestsItsOverCurrentBit : Prop :=
  ∀ (c : Nat) (s : State),
    (s.faultCode ≠ .none → exec (.channelOverCurrent c) s = .fault .stuck) ∧
    (s.faultCode = .none → s.cfgValid = false → exec (.channelOverCurrent c) s = .next (s.faulted .notConfigured)) ∧
    (s.faultCode = .none → s.cfgValid = true → s.chips * 4 ≤ c →
      exec (.channelOverCurrent c) s = .next (s.faulted .channelOutOfRange)) ∧
    (s.faultCode = .none → s.cfgValid = true → c < s.chips * 4 →
      exec (.channelOverCurrent c) s = .next (s.afterStatus (c / 4) (7 + c % 4)))

/-! ### The datagrams of the sequencer (the model's choice, log 13) -/

/-- Each of the six datagrams, given to the sequencer of a configured block, is one transaction that brings its word
(spec/30_encoding.md section 2) to the chips its rule names, and changes nothing else: a DAC or range write goes to every
chip with ALL and else to one chip, the power-up and the no-op to every chip, the load to one chip or to every chip, the
read request to one chip, and the one chip must be there. That a datagram runs as an operation of its own, with its
argument beside it, is the model's choice (log 13). -/
def Obligations.EachDatagramIsOneRegisterWrite : Prop :=
  ∀ s : State, s.faultCode = .none → s.cfgValid = true →
    (∀ (a : ChannelAddr) (p : BitVec 16), (a = .all ∨ s.rowArg.chip < s.chips) → exec (.dgDacWrite a p) s =
      .next (s.afterTransaction (s.frameToSel (s.rowSel a) (BitVec.ofNat 32 (a.code * 0x10000 + p.toNat))))) ∧
    (∀ (a : ChannelAddr) (r : OutputRange), (a = .all ∨ s.rowArg.chip < s.chips) → exec (.dgRangeWrite a r) s =
      .next (s.afterTransaction
        (s.frameToSel (s.rowSel a) (BitVec.ofNat 32 (0x080000 + a.code * 0x10000 + r.code))))) ∧
    exec .dgPowerUp s = .next (s.afterTransaction (s.frameToAll 0x10001F#32)) ∧
    exec .dgNop s = .next (s.afterTransaction (s.frameToAll 0x180000#32)) ∧
    ((s.rowArg.all = true ∨ s.rowArg.chip < s.chips) →
      exec .dgLoad s = .next (s.afterTransaction (s.frameToSel s.rowLoadSel 0x1D0000#32))) ∧
    (s.rowArg.chip < s.chips →
      exec .dgPowerRead s = .next (s.afterTransaction (s.frameToChip s.rowArg.chip 0x900000#32)))

/-- A datagram given to an unconfigured block raises NOT_CONFIGURED. A DAC or range write of one channel of a chip that
is not there raises the fault of a channel out of range, and a load or a read request for such a chip that of a chip out
of range (spec/41_addressing_and_transactions.md section 1). That a datagram runs as an operation of its own is the
model's choice (log 13). -/
def Obligations.DatagramsNeedAConfiguredBlockAndAPresentChip : Prop :=
  ∀ s : State, s.faultCode = .none →
    (s.cfgValid = false → ∀ i, isHostCommand i = false → exec i s = .next (s.faulted .notConfigured)) ∧
    (s.cfgValid = true → s.chips ≤ s.rowArg.chip →
      (∀ (a : ChannelAddr) (p : BitVec 16), a ≠ .all →
        exec (.dgDacWrite a p) s = .next (s.faulted .channelOutOfRange)) ∧
      (∀ (a : ChannelAddr) (r : OutputRange), a ≠ .all →
        exec (.dgRangeWrite a r) s = .next (s.faulted .channelOutOfRange)) ∧
      (s.rowArg.all = false → exec .dgLoad s = .next (s.faulted .chipIndexOutOfRange)) ∧
      exec .dgPowerRead s = .next (s.faulted .chipIndexOutOfRange))

/-- WRITE_VALUE is the two datagrams it is made of, DG_DAC_WRITE for the target's address and then DG_LOAD, both with the
argument of the target's chips (spec/43_output.md section 3). That a datagram runs as an operation of its own is the
model's choice (log 13). -/
def Obligations.WriteValueIsADacWriteThenALoad : Prop :=
  ∀ (t : Target) (arg : RowArg) (value : BitVec 32) (s : State),
    s.faultCode = .none → s.cfgValid = true → s.hasTarget t →
    (arg.all = false ∧ (resolve t).1 = .chip arg.chip ∨ arg.all = true ∧ (resolve t).1 = .allChips) →
    ∃ s1 s2, exec (.dgDacWrite (resolve t).2 (scale s.resolution value)) { s with rowArg := arg } = .next s1 ∧
      exec .dgLoad s1 = .next s2 ∧
      exec (.writeValue t value) s = .next { s2 with rowArg := s.rowArg, result := ⟨.none, 0⟩ }

/-- Every status operation is the two datagrams of the two-phase read, DG_POWER_READ and then DG_NOP, and a result
(spec/41_addressing_and_transactions.md section 3). The model's choice in the same way (log 13). -/
def Obligations.StatusReadIsAPowerReadThenANop : Prop :=
  ∀ (i : Instr) (k : Nat) (s : State), statusChip i = some k → s.faultCode = .none → s.cfgValid = true → k < s.chips →
    ∃ s1 s2 r, exec .dgPowerRead { s with rowArg := ⟨k, false⟩ } = .next s1 ∧
      exec .dgNop s1 = .next s2 ∧
      exec i s = .next { s2 with rowArg := s.rowArg, result := r }

/-! ### Faults and reset -/

/-- While `FAULT` is not 0 no operation does anything, no step does but a reset, and a reset clears it
(spec/60_exceptions.md section 2). That the stop is a named fault and that the reset signal is a line that the next step
takes are the model's choices (logs 11, 12). -/
def Obligations.AFaultedBlockIsStuck : Prop :=
  ∀ s : State, s.faultCode ≠ .none →
    (∀ i, exec i s = .fault .stuck) ∧ (s.resetLine = false → step s = .fault .stuck) ∧
    (s.resetLine = true → ∃ t, step s = .next t ∧ t.faultCode = .none)

/-- R132 with the causes of R124: of the causes that apply to a host command, the first in the order is raised; with
none, the command completes without a fault. -/
def Obligations.HostFaultsFollowThePriorityOrder : Prop :=
  ∀ (i : Instr) (s : State), isHostCommand i = true →
    (s.faultCode ≠ .none → exec i s = .fault .stuck) ∧
    (s.faultCode = .none → faultDue s i ≠ .none → exec i s = .next (s.faulted (faultDue s i))) ∧
    (s.faultCode = .none → faultDue s i = .none → ∃ t, exec i s = .next t ∧ t.faultCode = .none)

/-- R125: a fault writes `FAULT` and the result port, and nothing else: no event, no other field. -/
def Obligations.AFaultChangesOnlyFaultAndTheResult : Prop :=
  ∀ (i : Instr) (s t : State), exec i s = .next t → t.faultCode ≠ .none →
    t = { s with faultCode := t.faultCode, result := ⟨.fault, 0⟩ }

/-- R34: the values the spec gives for reset. -/
def Obligations.ResetLeavesTheStatedValues : Prop :=
  State.reset.cfgValid = false ∧ State.reset.faultCode = .none ∧ State.reset.csLvl = .unknown ∧
    State.reset.ldacLvl = .unknown ∧ State.reset.clrLvl = .unknown

/-- The reset signal, faulted or not, clears `CFG_VALID` and `FAULT`, makes the pin levels UNKNOWN and emits nothing;
without it no step clears either (spec/70_reset_and_hazards.md section 1). That the signal is a line taken before any
command is the model's choice (log 12). -/
def Obligations.ResetAloneClearsFaultAndConfiguration : Prop :=
  (∀ s : State, s.resetLine = true → ∃ t, step s = .next t ∧ t.cfgValid = false ∧ t.faultCode = .none ∧
    t.csLvl = .unknown ∧ t.ldacLvl = .unknown ∧ t.clrLvl = .unknown ∧ t.trace = s.trace ∧
    t.pending = s.pending ∧ t.resetLine = false ∧ t.datagramBytes = s.datagramBytes) ∧
  (∀ s t : State, s.resetLine = false → step s = .next t →
    s.faultCode = .none ∧ (s.cfgValid = true → t.cfgValid = true))

/-! ### Invariants -/

/-- The reset state meets the invariants that every step keeps (spec/10_state.md section 6, spec/20_memory.md section 4),
and its trace holds no event (log 6). -/
def Obligations.ResetMeetsTheInvariants : Prop :=
  State.reset.ConfigOk ∧ WellFramed State.reset.trace ∧ State.reset.trace = []

/-- Between operations, whenever `CFG_VALID` is 1, the chip count is 1 to 4 and the three pins are HIGH. Every step
keeps it (spec/10_state.md section 6). -/
def Obligations.EveryStepKeepsTheConfigurationInvariant : Prop :=
  ∀ s t : State, s.ConfigOk → step s = .next t → t.ConfigOk

/-- Every step keeps the trace a run of whole transactions: bytes move only while chip select is LOW, chip select is LOW
only between a BUS_BEGIN and its BUS_END, and no transaction is left open. The load and clear pins are never driven LOW
(spec/41_addressing_and_transactions.md section 3, spec/20_memory.md section 4, spec/70_reset_and_hazards.md section
3). -/
def Obligations.EveryStepKeepsTransactionsClosed : Prop :=
  ∀ s t : State, WellFramed s.trace → step s = .next t → WellFramed t.trace

/-- Nothing is remembered from one datagram to the next (spec/20_memory.md section 7): whatever argument an earlier
datagram left in place, a step ends the same, and its state differs at most in the argument. The argument is the model's
own field (log 13). -/
def Obligations.NoStepReadsAnEarlierDatagramsArgument : Prop :=
  ∀ (s : State) (arg : RowArg),
    (∀ t, step s = .next t → ∃ arg', step { s with rowArg := arg } = .next { t with rowArg := arg' }) ∧
    (∀ f, step s = .fault f → step { s with rowArg := arg } = .fault f) ∧
    (∀ f, step s = .refused f → step { s with rowArg := arg } = .refused f)

/-- Every frame a step sends has one of the two forms of addressing: a broadcast word for every chip, or a single-chip
word for one chip, which is there, and no-ops for the others. No other pairing of a chip selector and a channel address,
no power-up for one chip and no load for an absent chip reaches the wire (spec/41_addressing_and_transactions.md section
3, spec/42_configuration.md, spec/90_conflicts.md). -/
def Obligations.EveryFrameHasOneOfTheTwoForms : Prop :=
  ∀ s t : State, step s = .next t →
    ∃ new, t.trace = s.trace ++ new ∧ ∀ f ∈ txFrames new, TwoFormFrame t.chips t.datagramBytes f

/-- R63: a step only adds to the trace, and every frame it sends has one slot per chip, each slot one of the six
datagrams of the table. -/
def Obligations.TheWireCarriesOnlyTheSixDatagrams : Prop :=
  ∀ s t : State, step s = .next t →
    ∃ new, t.trace = s.trace ++ new ∧
      ∀ f ∈ txFrames new, FrameOk t.chips t.datagramBytes f ∧ f.length = t.chips * t.datagramBytes.toNat

/-- The pin-level fields record the level last written to each pin (spec/10_state.md section 2). -/
def Obligations.PinLevelsRecordTheLastWrite : Prop :=
  ∀ (i : Instr) (s t : State), exec i s = .next t →
    ∃ new, t.trace = s.trace ++ new ∧ t.csLvl = lastLevel .cs s.csLvl new ∧
      t.ldacLvl = lastLevel .ldac s.ldacLvl new ∧ t.clrLvl = lastLevel .clr s.clrLvl new

/-- How many transactions each operation makes when it completes (spec/42_configuration.md, spec/43_output.md,
spec/44_status.md; one for a datagram of the sequencer, log 13). -/
def Obligations.EachOperationMakesItsTransactions : Prop :=
  ∀ (i : Instr) (s t : State), exec i s = .next t → t.faultCode = .none →
    ∃ new, t.trace = s.trace ++ new ∧ (txFrames new).length = transactionCount i

/-- Only CONFIGURE writes the chip count, the resolution, CFG_VALID and the levels of the load and clear pins; only
CONFIGURE and SET_OUTPUT_RANGE write the polarity (spec/10_state.md R18, R25). -/
def Obligations.OnlyConfigureAndSetOutputRangeWriteConfiguration : Prop :=
  ∀ (i : Instr) (s t : State), exec i s = .next t →
    ((∀ n r, i ≠ .configure n r) → t.cfgValid = s.cfgValid ∧ t.chipCount = s.chipCount ∧
      t.resolution = s.resolution ∧ t.ldacLvl = s.ldacLvl ∧ t.clrLvl = s.clrLvl) ∧
    ((∀ n r, i ≠ .configure n r) → (∀ x r, i ≠ .setOutputRange x r) → t.polarity = s.polarity) ∧
    (s.cfgValid = true → t.cfgValid = true ∧ t.chipCount = s.chipCount ∧ t.resolution = s.resolution)

/-- No operation writes the parameter DATAGRAM_BYTES (spec/10_state.md R26) or the model's inputs `pending`, `resetLine`
and `rowArg` (logs 1, 10, 12, 13), and an operation takes from the replies exactly the bytes it transfers. -/
def Obligations.OperationsLeaveParametersAndInputsAlone : Prop :=
  ∀ (i : Instr) (s t : State), exec i s = .next t →
    t.datagramBytes = s.datagramBytes ∧ t.pending = s.pending ∧ t.resetLine = s.resetLine ∧ t.rowArg = s.rowArg ∧
    ∃ n, t.xfers = s.xfers + n ∧ t.replies = s.replies.drop n ∧
      (t.faultCode = .none → n = transactionCount i * (t.chips * t.datagramBytes.toNat))

/-- A host command that completes answers the kind of result the table gives it (spec/30_encoding.md section 4,
spec/10_state.md section 4). -/
def Obligations.CompletedCommandsAnswerTheirKind : Prop :=
  ∀ (i : Instr) (s t : State), isHostCommand i = true → exec i s = .next t → t.faultCode = .none →
    t.result.kind = kindReturned i ∧ (kindReturned i = .none → t.result.res = 0) ∧
    (kindReturned i = .bool → t.result.res = 0 ∨ t.result.res = 1)

/-! ### Noninterference -/

/-- While `CFG_VALID` is 0 no operation reads CHIP_COUNT, RESOLUTION or POLARITY: with other values in them every
operation ends the same, with a next state or a stop, and differs at most in those fields. So no operation shows the
values the model names for them at reset (logs 2, 3, 4; spec/10_state.md section 2). -/
def Obligations.UnconfiguredBlockReadsNoConfiguration : Prop :=
  ∀ (i : Instr) (s : State) (n : BitVec 3) (r : Resolution) (p : Polarity), s.cfgValid = false →
    (∀ t, exec i s = .next t → exec i (s.withConfigFields n r p) =
      .next (if t.cfgValid then t else t.withConfigFields n r p)) ∧
    (∀ f, exec i s = .fault f → exec i (s.withConfigFields n r p) = .fault f) ∧
    (∀ f, exec i s ≠ .refused f)

/-- What the transport returns reaches nothing but the trace's record of it and the result of a status
operation: with other bytes to come, every operation sends the same and leaves the same (spec/20_memory.md section 4,
spec/41_addressing_and_transactions.md section 3). -/
def Obligations.ReceivedBytesReachOnlyStatusResults : Prop :=
  ∀ (i : Instr) (s t : State) (rs : List Byte) (x : Nat), exec i s = .next t →
    ∃ t', exec i { s with replies := rs, xfers := x } = .next t' ∧
      t'.trace.map Event.sent = t.trace.map Event.sent ∧
      { t' with trace := t.trace, replies := t.replies, xfers := t.xfers, result := t.result } = t ∧
      (isStatusOperation i = false → t'.result = t.result)

/-! ### The step -/

/-- When the reset signal is down and the first waiting command decodes, the step is that operation in the state where
the command waits no longer and its argument is in place (log 1). -/
def Obligations.AStepRunsTheDecodedCommand : Prop :=
  ∀ (s : State) (p : Pending) (rest : List Pending) (i : Instr), s.resetLine = false → s.pending = p :: rest →
    decode p.word = .ok i → i.wellFormed = true →
    step s = exec i { s with pending := rest, rowArg := p.arg }

/-- With no reset and nothing waiting a block without a fault waits unchanged (log 1). -/
def Obligations.AnIdleBlockWaits : Prop :=
  ∀ s : State, s.resetLine = false → s.pending = [] → s.faultCode = .none → step s = .next s

/-- A datagram that is none of the six is refused by name when the sequencer of a block without a fault is given it
(log 14). -/
def Obligations.AWordNeverSentIsRefused : Prop :=
  ∀ (s : State) (arg : RowArg) (w : DatagramWord) (rest : List Pending) (why : DecodeError),
    s.resetLine = false → s.faultCode = .none → s.pending = .datagram arg w :: rest → decodeWire w = .error why →
    step s = .refused (.neverSent why)

/-- The packed view of the configuration has each field where the table of spec/10_state.md section 2 puts it and 0 in
its reserved bits. -/
def Obligations.ConfigViewHoldsEachFieldInItsPlace : Prop :=
  ∀ s : State, s.cfg.extractLsb' 0 1 = BitVec.ofBool s.cfgValid ∧ s.cfg.extractLsb' 1 3 = s.chipCount ∧
    (s.resolution, s.cfg.extractLsb' 4 2) ∈ [(Resolution.r12, 0#2), (.r14, 1#2), (.r16, 2#2)] ∧
    (s.polarity, s.cfg.extractLsb' 6 1) ∈ [(Polarity.unipolar, 0#1), (.bipolar, 1#1)] ∧
    s.cfg.extractLsb' 7 1 = 0 ∧
    (s.faultCode, s.cfg.extractLsb' 8 4) ∈ [(FaultCode.none, 0#4), (.illegalOperation, 1#4), (.notConfigured, 2#4),
      (.alreadyConfigured, 3#4), (.invalidResolution, 4#4), (.channelOutOfRange, 5#4), (.chipIndexOutOfRange, 6#4)] ∧
    s.cfg.extractLsb' 12 20 = 0
end

