-- ==== Sys2Proof/Laws/Decode.lean ====
section
/-! SUPPORT. The fields of a host word and of a packed datagram, read back: each word as a number, once, and its fields
as quotients and remainders of it. -/

namespace Sys2Proof

theorem toNat_cat {m n : Nat} (x : BitVec m) (y : BitVec n) : (x ++ y).toNat = x.toNat * 2 ^ n + y.toNat := by
  rw [BitVec.toNat_append, Nat.shiftLeft_eq, Nat.mul_comm, Nat.two_pow_add_eq_or_of_lt y.isLt]

theorem toNat_hostWord (op a : BitVec 8) (b : BitVec 32) :
    (hostWord op a b).toNat = op.toNat * 2 ^ 40 + a.toNat * 2 ^ 32 + b.toNat := by
  have h1 := toNat_cat (op ++ a) b
  have h2 := toNat_cat op a
  have h : (hostWord op a b).toNat = ((op ++ a) ++ b).toNat := rfl
  omega

@[simp] theorem hostOp_hostWord (op a : BitVec 8) (b : BitVec 32) : hostOp (hostWord op a b) = op := by
  apply BitVec.eq_of_toNat_eq
  have h := toNat_hostWord op a b
  simp only [hostOp, BitVec.extractLsb'_toNat, Nat.shiftRight_eq_div_pow]
  omega

@[simp] theorem hostA_hostWord (op a : BitVec 8) (b : BitVec 32) : hostA (hostWord op a b) = a := by
  apply BitVec.eq_of_toNat_eq
  have h := toNat_hostWord op a b
  simp only [hostA, BitVec.extractLsb'_toNat, Nat.shiftRight_eq_div_pow]
  omega

@[simp] theorem hostB_hostWord (op a : BitVec 8) (b : BitVec 32) : hostB (hostWord op a b) = b := by
  apply BitVec.eq_of_toNat_eq
  have h := toNat_hostWord op a b
  simp only [hostB, BitVec.extractLsb'_toNat, Nat.shiftRight_eq_div_pow]
  omega

theorem decodeTarget_encodeTarget {t : Target} (h : t.wellFormed = true) : decodeTarget (encodeTarget t) = t := by
  cases t with
  | all => rfl
  | channel c =>
    simp only [Target.wellFormed, decide_eq_true_eq] at h
    have hne : BitVec.ofNat 8 c ≠ 0xFF#8 := fun e => by
      have := congrArg BitVec.toNat e
      simp at this
      omega
    simp [decodeTarget, encodeTarget, hne]
    omega

/-- A packed word as a number (spec/40_codec.md R80). -/
theorem toNat_pack (dir reg addr payload : Nat) :
    (pack dir reg addr payload).toNat =
      dir % 2 * 2 ^ 23 + reg % 8 * 2 ^ 19 + addr % 8 * 2 ^ 16 + payload % 2 ^ 16 := by
  have h1 := toNat_cat (0#8) (BitVec.ofNat 1 dir)
  have h2 := toNat_cat (0#8 ++ BitVec.ofNat 1 dir) (0#1)
  have h3 := toNat_cat (0#8 ++ BitVec.ofNat 1 dir ++ 0#1) (BitVec.ofNat 3 reg)
  have h4 := toNat_cat (0#8 ++ BitVec.ofNat 1 dir ++ 0#1 ++ BitVec.ofNat 3 reg) (BitVec.ofNat 3 addr)
  have h5 := toNat_cat (0#8 ++ BitVec.ofNat 1 dir ++ 0#1 ++ BitVec.ofNat 3 reg ++ BitVec.ofNat 3 addr)
    (BitVec.ofNat 16 payload)
  have h : (pack dir reg addr payload).toNat = (0#8 ++ BitVec.ofNat 1 dir ++ 0#1 ++ BitVec.ofNat 3 reg ++
    BitVec.ofNat 3 addr ++ BitVec.ofNat 16 payload).toNat := rfl
  rw [h, h5, h4, h3, h2, h1]
  simp only [BitVec.toNat_ofNat, Nat.reducePow, Nat.reduceMod]
  omega

/-- The datagrams of the table as numbers (spec/30_encoding.md R63). -/
theorem dacWriteWord_eq (a : ChannelAddr) (p : BitVec 16) :
    dacWriteWord a p = BitVec.ofNat 32 (a.code * 0x10000 + p.toNat) := by
  apply BitVec.eq_of_toNat_eq
  have hp := p.isLt
  simp only [dacWriteWord, toNat_pack, BitVec.toNat_ofNat, dirWrite, regDac]
  cases a <;> simp only [ChannelAddr.code] <;> omega

theorem rangeWriteWord_eq (a : ChannelAddr) (r : OutputRange) :
    rangeWriteWord a r = BitVec.ofNat 32 (0x080000 + a.code * 0x10000 + r.code) := by
  cases a <;> cases r <;> decide

/-- One more byte shifted in from below. -/
theorem toNat_shiftIn (w : Word) (b : Byte) (h : w.toNat < 2 ^ 24) :
    ((w <<< 8) ||| b.setWidth 32).toNat = w.toNat * 2 ^ 8 + b.toNat := by
  have hb := b.isLt
  have hb' : b.toNat % 2 ^ 32 = b.toNat := Nat.mod_eq_of_lt (by omega)
  have hw : w.toNat * 2 ^ 8 % 2 ^ 32 = w.toNat * 2 ^ 8 := Nat.mod_eq_of_lt (by omega)
  rw [BitVec.toNat_or, BitVec.toNat_shiftLeft, BitVec.toNat_setWidth, Nat.shiftLeft_eq, hb', hw, Nat.mul_comm,
    Nat.two_pow_add_eq_or_of_lt hb]

/-- A word rebuilt from three bytes (spec/40_codec.md R84). -/
theorem toNat_fromBytes_three (x y z : Byte) :
    (fromBytes [x, y, z]).toNat = x.toNat * 2 ^ 16 + y.toNat * 2 ^ 8 + z.toNat := by
  have hx := x.isLt
  have hy := y.isLt
  have hz := z.isLt
  have h0 : (0 : Word).toNat = 0 := rfl
  have h1 := toNat_shiftIn 0 x (by simp)
  have h2 := toNat_shiftIn _ y (by rw [h1]; omega)
  have h3 := toNat_shiftIn _ z (by rw [h2, h1]; omega)
  change (((((0 : Word) <<< 8) ||| x.setWidth 32) <<< 8 ||| y.setWidth 32) <<< 8 ||| z.setWidth 32).toNat = _
  rw [h3, h2, h1, h0]
  ring

/-- A word rebuilt from four bytes (spec/40_codec.md R84). -/
theorem toNat_fromBytes_four (x y z u : Byte) :
    (fromBytes [x, y, z, u]).toNat = x.toNat * 2 ^ 24 + y.toNat * 2 ^ 16 + z.toNat * 2 ^ 8 + u.toNat := by
  have hx := x.isLt
  have hy := y.isLt
  have hz := z.isLt
  have h := toNat_fromBytes_three x y z
  have h4 := toNat_shiftIn (fromBytes [x, y, z]) u (by omega)
  have e : fromBytes [x, y, z, u] = (fromBytes [x, y, z] <<< 8) ||| u.setWidth 32 := rfl
  rw [e, h4]
  omega

/-- The bytes of a word, rebuilt: what goes on the wire of it (spec/40_codec.md R81, R84). -/
theorem toNat_fromBytes_toBytes (db : DatagramBytes) (w : Word) :
    (fromBytes (toBytes db w)).toNat = w.toNat % 2 ^ (8 * db.toNat) := by
  have hw := w.isLt
  cases db
  · simp only [toBytes, toNat_fromBytes_three, BitVec.extractLsb'_toNat, Nat.shiftRight_eq_div_pow, DatagramBytes.toNat]
    omega
  · simp only [toBytes, toNat_fromBytes_four, BitVec.extractLsb'_toNat, Nat.shiftRight_eq_div_pow, DatagramBytes.toNat]
    omega

end Sys2Proof
end

