-- ==== Sys2Proof/Laws/State.lean ====
section
/-! SUPPORT. One lemma per field per update of the state, each true by definition, so that no proof unfolds an update. -/

namespace Sys2Proof.Machine

variable (s : State)

/-! ### `answer` -/

@[simp] theorem State.answer_cfgValid (kind : ResultKind) (res : Word) : (s.answer kind res).cfgValid = s.cfgValid := rfl
@[simp] theorem State.answer_chipCount (kind : ResultKind) (res : Word) : (s.answer kind res).chipCount = s.chipCount := rfl
@[simp] theorem State.answer_resolution (kind : ResultKind) (res : Word) : (s.answer kind res).resolution = s.resolution := rfl
@[simp] theorem State.answer_polarity (kind : ResultKind) (res : Word) : (s.answer kind res).polarity = s.polarity := rfl
@[simp] theorem State.answer_faultCode (kind : ResultKind) (res : Word) : (s.answer kind res).faultCode = s.faultCode := rfl
@[simp] theorem State.answer_csLvl (kind : ResultKind) (res : Word) : (s.answer kind res).csLvl = s.csLvl := rfl
@[simp] theorem State.answer_ldacLvl (kind : ResultKind) (res : Word) : (s.answer kind res).ldacLvl = s.ldacLvl := rfl
@[simp] theorem State.answer_clrLvl (kind : ResultKind) (res : Word) : (s.answer kind res).clrLvl = s.clrLvl := rfl
@[simp] theorem State.answer_result (kind : ResultKind) (res : Word) : (s.answer kind res).result = ⟨kind, res⟩ := rfl
@[simp] theorem State.answer_trace (kind : ResultKind) (res : Word) : (s.answer kind res).trace = s.trace := rfl
@[simp] theorem State.answer_datagramBytes (kind : ResultKind) (res : Word) : (s.answer kind res).datagramBytes = s.datagramBytes := rfl
@[simp] theorem State.answer_resetLine (kind : ResultKind) (res : Word) : (s.answer kind res).resetLine = s.resetLine := rfl
@[simp] theorem State.answer_pending (kind : ResultKind) (res : Word) : (s.answer kind res).pending = s.pending := rfl
@[simp] theorem State.answer_rowArg (kind : ResultKind) (res : Word) : (s.answer kind res).rowArg = s.rowArg := rfl
@[simp] theorem State.answer_replies (kind : ResultKind) (res : Word) : (s.answer kind res).replies = s.replies := rfl
@[simp] theorem State.answer_xfers (kind : ResultKind) (res : Word) : (s.answer kind res).xfers = s.xfers := rfl

/-! ### `raise` -/

@[simp] theorem State.raise_cfgValid (code : FaultCode) : (s.raise code).cfgValid = s.cfgValid := rfl
@[simp] theorem State.raise_chipCount (code : FaultCode) : (s.raise code).chipCount = s.chipCount := rfl
@[simp] theorem State.raise_resolution (code : FaultCode) : (s.raise code).resolution = s.resolution := rfl
@[simp] theorem State.raise_polarity (code : FaultCode) : (s.raise code).polarity = s.polarity := rfl
@[simp] theorem State.raise_faultCode (code : FaultCode) : (s.raise code).faultCode = code := rfl
@[simp] theorem State.raise_csLvl (code : FaultCode) : (s.raise code).csLvl = s.csLvl := rfl
@[simp] theorem State.raise_ldacLvl (code : FaultCode) : (s.raise code).ldacLvl = s.ldacLvl := rfl
@[simp] theorem State.raise_clrLvl (code : FaultCode) : (s.raise code).clrLvl = s.clrLvl := rfl
@[simp] theorem State.raise_result (code : FaultCode) : (s.raise code).result = ⟨.fault, 0⟩ := rfl
@[simp] theorem State.raise_trace (code : FaultCode) : (s.raise code).trace = s.trace := rfl
@[simp] theorem State.raise_datagramBytes (code : FaultCode) : (s.raise code).datagramBytes = s.datagramBytes := rfl
@[simp] theorem State.raise_resetLine (code : FaultCode) : (s.raise code).resetLine = s.resetLine := rfl
@[simp] theorem State.raise_pending (code : FaultCode) : (s.raise code).pending = s.pending := rfl
@[simp] theorem State.raise_rowArg (code : FaultCode) : (s.raise code).rowArg = s.rowArg := rfl
@[simp] theorem State.raise_replies (code : FaultCode) : (s.raise code).replies = s.replies := rfl
@[simp] theorem State.raise_xfers (code : FaultCode) : (s.raise code).xfers = s.xfers := rfl

/-! ### `emit` -/

@[simp] theorem State.emit_cfgValid (e : Event) : (s.emit e).cfgValid = s.cfgValid := rfl
@[simp] theorem State.emit_chipCount (e : Event) : (s.emit e).chipCount = s.chipCount := rfl
@[simp] theorem State.emit_resolution (e : Event) : (s.emit e).resolution = s.resolution := rfl
@[simp] theorem State.emit_polarity (e : Event) : (s.emit e).polarity = s.polarity := rfl
@[simp] theorem State.emit_faultCode (e : Event) : (s.emit e).faultCode = s.faultCode := rfl
@[simp] theorem State.emit_csLvl (e : Event) : (s.emit e).csLvl = s.csLvl := rfl
@[simp] theorem State.emit_ldacLvl (e : Event) : (s.emit e).ldacLvl = s.ldacLvl := rfl
@[simp] theorem State.emit_clrLvl (e : Event) : (s.emit e).clrLvl = s.clrLvl := rfl
@[simp] theorem State.emit_result (e : Event) : (s.emit e).result = s.result := rfl
@[simp] theorem State.emit_trace (e : Event) : (s.emit e).trace = s.trace ++ [e] := rfl
@[simp] theorem State.emit_datagramBytes (e : Event) : (s.emit e).datagramBytes = s.datagramBytes := rfl
@[simp] theorem State.emit_resetLine (e : Event) : (s.emit e).resetLine = s.resetLine := rfl
@[simp] theorem State.emit_pending (e : Event) : (s.emit e).pending = s.pending := rfl
@[simp] theorem State.emit_rowArg (e : Event) : (s.emit e).rowArg = s.rowArg := rfl
@[simp] theorem State.emit_replies (e : Event) : (s.emit e).replies = s.replies := rfl
@[simp] theorem State.emit_xfers (e : Event) : (s.emit e).xfers = s.xfers := rfl

/-! ### `xfer` -/

@[simp] theorem State.xfer_cfgValid (tx : Byte) : (s.xfer tx).cfgValid = s.cfgValid := rfl
@[simp] theorem State.xfer_chipCount (tx : Byte) : (s.xfer tx).chipCount = s.chipCount := rfl
@[simp] theorem State.xfer_resolution (tx : Byte) : (s.xfer tx).resolution = s.resolution := rfl
@[simp] theorem State.xfer_polarity (tx : Byte) : (s.xfer tx).polarity = s.polarity := rfl
@[simp] theorem State.xfer_faultCode (tx : Byte) : (s.xfer tx).faultCode = s.faultCode := rfl
@[simp] theorem State.xfer_csLvl (tx : Byte) : (s.xfer tx).csLvl = s.csLvl := rfl
@[simp] theorem State.xfer_ldacLvl (tx : Byte) : (s.xfer tx).ldacLvl = s.ldacLvl := rfl
@[simp] theorem State.xfer_clrLvl (tx : Byte) : (s.xfer tx).clrLvl = s.clrLvl := rfl
@[simp] theorem State.xfer_result (tx : Byte) : (s.xfer tx).result = s.result := rfl
@[simp] theorem State.xfer_trace (tx : Byte) : (s.xfer tx).trace = s.trace ++ [.busXfer tx (s.rxByte 0)] := rfl
@[simp] theorem State.xfer_datagramBytes (tx : Byte) : (s.xfer tx).datagramBytes = s.datagramBytes := rfl
@[simp] theorem State.xfer_resetLine (tx : Byte) : (s.xfer tx).resetLine = s.resetLine := rfl
@[simp] theorem State.xfer_pending (tx : Byte) : (s.xfer tx).pending = s.pending := rfl
@[simp] theorem State.xfer_rowArg (tx : Byte) : (s.xfer tx).rowArg = s.rowArg := rfl
@[simp] theorem State.xfer_replies (tx : Byte) : (s.xfer tx).replies = s.replies.tail := rfl
@[simp] theorem State.xfer_xfers (tx : Byte) : (s.xfer tx).xfers = s.xfers + 1 := rfl

/-! ### `configured` -/

@[simp] theorem State.configured_cfgValid (n : Nat) (r : Resolution) : (s.configured n r).cfgValid = true := rfl
@[simp] theorem State.configured_chipCount (n : Nat) (r : Resolution) : (s.configured n r).chipCount = clampChipCount n := rfl
@[simp] theorem State.configured_resolution (n : Nat) (r : Resolution) : (s.configured n r).resolution = r := rfl
@[simp] theorem State.configured_polarity (n : Nat) (r : Resolution) : (s.configured n r).polarity = .unipolar := rfl
@[simp] theorem State.configured_faultCode (n : Nat) (r : Resolution) : (s.configured n r).faultCode = s.faultCode := rfl
@[simp] theorem State.configured_csLvl (n : Nat) (r : Resolution) : (s.configured n r).csLvl = s.csLvl := rfl
@[simp] theorem State.configured_ldacLvl (n : Nat) (r : Resolution) : (s.configured n r).ldacLvl = s.ldacLvl := rfl
@[simp] theorem State.configured_clrLvl (n : Nat) (r : Resolution) : (s.configured n r).clrLvl = s.clrLvl := rfl
@[simp] theorem State.configured_result (n : Nat) (r : Resolution) : (s.configured n r).result = s.result := rfl
@[simp] theorem State.configured_trace (n : Nat) (r : Resolution) : (s.configured n r).trace = s.trace := rfl
@[simp] theorem State.configured_datagramBytes (n : Nat) (r : Resolution) : (s.configured n r).datagramBytes = s.datagramBytes := rfl
@[simp] theorem State.configured_resetLine (n : Nat) (r : Resolution) : (s.configured n r).resetLine = s.resetLine := rfl
@[simp] theorem State.configured_pending (n : Nat) (r : Resolution) : (s.configured n r).pending = s.pending := rfl
@[simp] theorem State.configured_rowArg (n : Nat) (r : Resolution) : (s.configured n r).rowArg = s.rowArg := rfl
@[simp] theorem State.configured_replies (n : Nat) (r : Resolution) : (s.configured n r).replies = s.replies := rfl
@[simp] theorem State.configured_xfers (n : Nat) (r : Resolution) : (s.configured n r).xfers = s.xfers := rfl

/-! ### `accept` -/

@[simp] theorem State.accept_cfgValid (p : Pending) (rest : List Pending) : (s.accept p rest).cfgValid = s.cfgValid := rfl
@[simp] theorem State.accept_chipCount (p : Pending) (rest : List Pending) : (s.accept p rest).chipCount = s.chipCount := rfl
@[simp] theorem State.accept_resolution (p : Pending) (rest : List Pending) : (s.accept p rest).resolution = s.resolution := rfl
@[simp] theorem State.accept_polarity (p : Pending) (rest : List Pending) : (s.accept p rest).polarity = s.polarity := rfl
@[simp] theorem State.accept_faultCode (p : Pending) (rest : List Pending) : (s.accept p rest).faultCode = s.faultCode := rfl
@[simp] theorem State.accept_csLvl (p : Pending) (rest : List Pending) : (s.accept p rest).csLvl = s.csLvl := rfl
@[simp] theorem State.accept_ldacLvl (p : Pending) (rest : List Pending) : (s.accept p rest).ldacLvl = s.ldacLvl := rfl
@[simp] theorem State.accept_clrLvl (p : Pending) (rest : List Pending) : (s.accept p rest).clrLvl = s.clrLvl := rfl
@[simp] theorem State.accept_result (p : Pending) (rest : List Pending) : (s.accept p rest).result = s.result := rfl
@[simp] theorem State.accept_trace (p : Pending) (rest : List Pending) : (s.accept p rest).trace = s.trace := rfl
@[simp] theorem State.accept_datagramBytes (p : Pending) (rest : List Pending) : (s.accept p rest).datagramBytes = s.datagramBytes := rfl
@[simp] theorem State.accept_resetLine (p : Pending) (rest : List Pending) : (s.accept p rest).resetLine = s.resetLine := rfl
@[simp] theorem State.accept_pending (p : Pending) (rest : List Pending) : (s.accept p rest).pending = rest := rfl
@[simp] theorem State.accept_rowArg (p : Pending) (rest : List Pending) : (s.accept p rest).rowArg = p.arg := rfl
@[simp] theorem State.accept_replies (p : Pending) (rest : List Pending) : (s.accept p rest).replies = s.replies := rfl
@[simp] theorem State.accept_xfers (p : Pending) (rest : List Pending) : (s.accept p rest).xfers = s.xfers := rfl

/-! ### `takeReset` -/

@[simp] theorem State.takeReset_cfgValid : (s.takeReset).cfgValid = false := rfl
@[simp] theorem State.takeReset_chipCount : (s.takeReset).chipCount = State.reset.chipCount := rfl
@[simp] theorem State.takeReset_resolution : (s.takeReset).resolution = State.reset.resolution := rfl
@[simp] theorem State.takeReset_polarity : (s.takeReset).polarity = State.reset.polarity := rfl
@[simp] theorem State.takeReset_faultCode : (s.takeReset).faultCode = .none := rfl
@[simp] theorem State.takeReset_csLvl : (s.takeReset).csLvl = .unknown := rfl
@[simp] theorem State.takeReset_ldacLvl : (s.takeReset).ldacLvl = .unknown := rfl
@[simp] theorem State.takeReset_clrLvl : (s.takeReset).clrLvl = .unknown := rfl
@[simp] theorem State.takeReset_result : (s.takeReset).result = s.result := rfl
@[simp] theorem State.takeReset_trace : (s.takeReset).trace = s.trace := rfl
@[simp] theorem State.takeReset_datagramBytes : (s.takeReset).datagramBytes = s.datagramBytes := rfl
@[simp] theorem State.takeReset_resetLine : (s.takeReset).resetLine = false := rfl
@[simp] theorem State.takeReset_pending : (s.takeReset).pending = s.pending := rfl
@[simp] theorem State.takeReset_rowArg : (s.takeReset).rowArg = s.rowArg := rfl
@[simp] theorem State.takeReset_replies : (s.takeReset).replies = s.replies := rfl
@[simp] theorem State.takeReset_xfers : (s.takeReset).xfers = s.xfers := rfl

/-! ### `afterTransaction` -/

@[simp] theorem State.afterTransaction_cfgValid (tx : List Byte) : (s.afterTransaction tx).cfgValid = s.cfgValid := rfl
@[simp] theorem State.afterTransaction_chipCount (tx : List Byte) : (s.afterTransaction tx).chipCount = s.chipCount := rfl
@[simp] theorem State.afterTransaction_resolution (tx : List Byte) : (s.afterTransaction tx).resolution = s.resolution := rfl
@[simp] theorem State.afterTransaction_polarity (tx : List Byte) : (s.afterTransaction tx).polarity = s.polarity := rfl
@[simp] theorem State.afterTransaction_faultCode (tx : List Byte) : (s.afterTransaction tx).faultCode = s.faultCode := rfl
@[simp] theorem State.afterTransaction_csLvl (tx : List Byte) : (s.afterTransaction tx).csLvl = .high := rfl
@[simp] theorem State.afterTransaction_ldacLvl (tx : List Byte) : (s.afterTransaction tx).ldacLvl = s.ldacLvl := rfl
@[simp] theorem State.afterTransaction_clrLvl (tx : List Byte) : (s.afterTransaction tx).clrLvl = s.clrLvl := rfl
@[simp] theorem State.afterTransaction_result (tx : List Byte) : (s.afterTransaction tx).result = s.result := rfl
@[simp] theorem State.afterTransaction_trace (tx : List Byte) : (s.afterTransaction tx).trace = s.trace ++ transactionEvents tx (s.received tx.length) := rfl
@[simp] theorem State.afterTransaction_datagramBytes (tx : List Byte) : (s.afterTransaction tx).datagramBytes = s.datagramBytes := rfl
@[simp] theorem State.afterTransaction_resetLine (tx : List Byte) : (s.afterTransaction tx).resetLine = s.resetLine := rfl
@[simp] theorem State.afterTransaction_pending (tx : List Byte) : (s.afterTransaction tx).pending = s.pending := rfl
@[simp] theorem State.afterTransaction_rowArg (tx : List Byte) : (s.afterTransaction tx).rowArg = s.rowArg := rfl
@[simp] theorem State.afterTransaction_replies (tx : List Byte) : (s.afterTransaction tx).replies = s.replies.drop tx.length := rfl
@[simp] theorem State.afterTransaction_xfers (tx : List Byte) : (s.afterTransaction tx).xfers = s.xfers + tx.length := rfl

end Sys2Proof.Machine
end

