-- ==== Sys2Proof/Laws/Ops.lean ====
section
/-! SUPPORT. What each shared operation can do, said once: the transport, the frame, the transaction, the register
write and the two-phase read, each brought to the terms of `Sys2Proof.Safety`. -/

namespace Sys2Proof.Machine

/-! ### The checks -/

@[simp] theorem whenRunning_running {s : State} {k : Outcome} (h : s.faultCode = .none) : whenRunning s k = k := by
  simp [whenRunning, h]

@[simp] theorem whenRunning_stuck {s : State} {k : Outcome} (h : s.faultCode ≠ .none) :
    whenRunning s k = .fault .stuck := by
  simp [whenRunning, h]

theorem raise_eq_faulted (s : State) (code : FaultCode) : s.raise code = s.faulted code := rfl

@[simp] theorem unlessFault_none (s : State) (k : Outcome) : unlessFault .none s k = k := rfl

theorem checkTarget_of_hasTarget {t : Target} {s : State} (h : s.hasTarget t) : checkTarget t s = .none := by
  cases t with
  | channel c => exact if_neg (Nat.not_le.mpr h)
  | all => rfl

/-- The target of a datagram row is there when its chip is, or when it is for all chips. -/
theorem hasTarget_rowTarget {a : ChannelAddr} {s : State} :
    s.hasTarget (s.rowTarget a) ↔ (a = .all ∨ s.rowArg.chip < s.chips) := by
  cases a <;>
    simp [State.rowTarget, targetOf, State.hasTarget, Config.channelsPerChip, ChannelAddr.code] <;> omega

/-- A datagram row's target resolves to the row's chips and its own address
(spec/41_addressing_and_transactions.md R105). -/
theorem resolve_rowTarget (s : State) (a : ChannelAddr) : resolve (s.rowTarget a) = (s.rowSel a, a) := by
  have h0 : s.rowArg.chip * 4 / 4 = s.rowArg.chip := by omega
  have h1 : (s.rowArg.chip * 4 + 1) / 4 = s.rowArg.chip := by omega
  have h2 : (s.rowArg.chip * 4 + 2) / 4 = s.rowArg.chip := by omega
  have h3 : (s.rowArg.chip * 4 + 3) / 4 = s.rowArg.chip := by omega
  cases a <;> simp [State.rowTarget, State.rowSel, targetOf, resolve, chipOf, offsetOf, addrOf, Config.channelsPerChip,
    ChannelAddr.code, h0, h1, h2, h3]

theorem rowLoadSel_eq (s : State) : s.rowArg.sel = s.rowLoadSel := rfl

theorem checkSel_of_hasSel {sel : ChipSel} {s : State} (h : s.hasSel sel) : checkSel sel s = .none := by
  cases sel with
  | chip k => exact if_neg (Nat.not_le.mpr h)
  | allChips => rfl

theorem hasSel_of_checkSel {sel : ChipSel} {s : State} (h : checkSel sel s = .none) : s.hasSel sel := by
  cases sel with
  | chip k =>
    by_contra hk
    rw [checkSel, checkChip, if_pos (Nat.not_lt.mp hk)] at h
    cases h
  | allChips => trivial

/-- A target that is there resolves to chips that are there. -/
theorem hasSel_resolve {t : Target} {s : State} (h : s.hasTarget t) : s.hasSel (resolve t).1 := by
  cases t with
  | channel c =>
    simp only [State.hasTarget, resolve, chipOf, Config.channelsPerChip, State.hasSel] at *
    omega
  | all => trivial

/-- Every way an operation that names a target can end. -/
theorem checkTarget_cases (t : Target) (s : State) :
    (checkTarget t s = .none ∧ s.hasTarget t) ∨ (checkTarget t s = .channelOutOfRange ∧ ¬ s.hasTarget t) := by
  cases t with
  | channel c =>
    by_cases h : c < s.chips * 4
    · exact .inl ⟨if_neg (Nat.not_le.mpr h), h⟩
    · exact .inr ⟨if_pos (Nat.not_lt.mp h), h⟩
  | all => exact .inl ⟨rfl, trivial⟩

/-! ### The byte transport -/

theorem rxByte_xfer (s : State) (tx : Byte) (i : Nat) : (s.xfer tx).rxByte i = s.rxByte (i + 1) := by
  cases h : s.replies <;> simp [State.rxByte, h, Nat.add_assoc, Nat.add_comm 1 i]

theorem rxByte_afterTransaction (s : State) (tx : List Byte) (i : Nat) :
    (s.afterTransaction tx).rxByte i = s.rxByte (tx.length + i) := by
  simp [State.rxByte, List.getD_eq_getElem?_getD, List.getElem?_drop, Nat.add_assoc]

@[simp] theorem length_received (s : State) (n : Nat) : (s.received n).length = n := by simp [State.received]

theorem received_succ (s : State) (tx : Byte) (n : Nat) :
    s.received (n + 1) = s.rxByte 0 :: (s.xfer tx).received n := by
  simp [State.received, List.range_succ_eq_map, Function.comp_def, rxByte_xfer]

theorem getElem?_received (s : State) {n i : Nat} (h : i < n) : (s.received n)[i]? = some (s.rxByte i) := by
  simp [State.received, h]

/-- What the transfers of a frame leave. -/
theorem exchange_eq (tx : List Byte) (s : State) :
    s.exchange tx = (s.received tx.length,
      { s with
        trace := s.trace ++ List.zipWith Event.busXfer tx (s.received tx.length)
        replies := s.replies.drop tx.length
        xfers := s.xfers + tx.length }) := by
  induction tx generalizing s with
  | nil => simp [State.exchange, State.received]
  | cons b rest ih =>
    have hx : s.xfer b = { s with
        trace := s.trace ++ [Event.busXfer b (s.rxByte 0)], replies := s.replies.tail, xfers := s.xfers + 1 } := rfl
    rw [State.exchange, ih (s.xfer b), List.length_cons, received_succ s b]
    simp [hx, Nat.add_assoc, Nat.add_comm 1]

/-- What a transaction answers and leaves. -/
theorem transaction_eq (s : State) (tx : List Byte) :
    s.transaction tx = (s.received tx.length, s.afterTransaction tx) := by
  have h : ∀ n, s.busOpen.received n = s.received n := fun _ => rfl
  rw [State.transaction, exchange_eq, h]
  simp [State.busOpen, State.busClose, State.writePin, State.emit, State.afterTransaction, transactionEvents,
    Level.recorded, Config.bitOrder]

/-! ### Frames -/

@[simp] theorem nopWord_eq : nopWord = 0x180000#32 := by decide
@[simp] theorem powerUpWord_eq : powerUpWord = 0x10001F#32 := by decide
@[simp] theorem loadWord_eq : loadWord = 0x1D0000#32 := by decide
@[simp] theorem powerReadWord_eq : powerReadWord = 0x900000#32 := by decide

@[simp] theorem length_toBytes (db : DatagramBytes) (w : Word) : (toBytes db w).length = db.toNat := by
  cases db <;> rfl

theorem range_reverse_eq_map (n : Nat) : (List.range n).reverse = (List.range n).map fun j => n - 1 - j := by
  apply List.ext_getElem <;> simp

theorem buildFrame_eq_frameTo (s : State) (sel : ChipSel) (w : Word) :
    s.buildFrame sel w = frameTo s.chips s.datagramBytes sel.names w := by
  simp [State.buildFrame, frameTo, range_reverse_eq_map, List.flatMap_map]

/-- The frame in the terms of the claims. -/
theorem buildFrame_eq (s : State) (sel : ChipSel) (w : Word) : s.buildFrame sel w = s.frameToSel sel w := by
  rw [buildFrame_eq_frameTo]
  cases sel with
  | chip k =>
    have h : (ChipSel.chip k).names = fun k' => decide (k' = k) := by
      funext k'
      simp [ChipSel.names, eq_comm]
    rw [h]
    rfl
  | allChips =>
    have h : ChipSel.allChips.names = fun _ => true := by
      funext k'
      simp [ChipSel.names]
    rw [h]
    rfl

theorem frameTo_nop (n : Nat) (db : DatagramBytes) (named : Nat → Bool) :
    frameTo n db named 0x180000#32 = frameTo n db (fun _ => true) 0x180000#32 := by
  simp [frameTo]

theorem length_frameTo (n : Nat) (db : DatagramBytes) (named : Nat → Bool) (w : Word) :
    (frameTo n db named w).length = n * db.toNat := by
  simp [frameTo, List.length_flatMap]

theorem length_frameToSel (s : State) (sel : ChipSel) (w : Word) :
    (s.frameToSel sel w).length = s.chips * s.datagramBytes.toNat := by
  cases sel <;> exact length_frameTo ..

/-! ### Register writes and reads -/

/-- What a register write leaves. -/
theorem writeReg_eq (s : State) (sel : ChipSel) (w : Word) :
    s.writeReg sel w = s.afterTransaction (s.frameToSel sel w) := by
  simp [State.writeReg, transaction_eq, buildFrame_eq]

theorem getLsbD_twoBytes (y z : Byte) (i : Nat) :
    (y ++ z : BitVec 16).getLsbD i = if i < 8 then z.getLsbD i else y.getLsbD (i - 8) := by
  have h := BitVec.getLsbD_append (x := y) (y := z) (i := i)
  simpa [Bool.cond_eq_ite] using h

/-- The payload of a word rebuilt from three bytes is its two low bytes. -/
theorem payload_fromBytes_three (x y z : Byte) : (unpack (fromBytes [x, y, z])).payload = (y ++ z : BitVec 16) := by
  apply BitVec.eq_of_getLsbD_eq
  intro i hi
  rw [getLsbD_twoBytes]
  have h32 : i < 32 := by omega
  by_cases h : i < 8
  · simp [unpack, fromBytes, h, hi, h32]
  · have hy : i - 8 < 8 := by omega
    simp [unpack, fromBytes, h, hi, h32, hy, BitVec.getLsbD_of_ge z i (by omega)]

/-- The payload of a word rebuilt from four bytes is its two low bytes. -/
theorem payload_fromBytes_four (x y z u : Byte) :
    (unpack (fromBytes [x, y, z, u])).payload = (z ++ u : BitVec 16) := by
  apply BitVec.eq_of_getLsbD_eq
  intro i hi
  rw [getLsbD_twoBytes]
  have h32 : i < 32 := by omega
  by_cases h : i < 8
  · simp [unpack, fromBytes, h, hi, h32]
  · have hy : i - 8 < 8 := by omega
    simp [unpack, fromBytes, h, hi, h32, hy, BitVec.getLsbD_of_ge u i (by omega)]

/-- `DATAGRAM_BYTES` bytes of a list, from position `at` on, when the list is long enough. -/
theorem take_drop_received (s : State) {n at' len : Nat} (h : at' + len ≤ n) :
    ((s.received n).drop at').take len = (List.range len).map fun i => s.rxByte (at' + i) := by
  apply List.ext_getElem
  · simp; omega
  · intro i h1 h2
    simp [State.received]

/-- The reply of chip `k` among the bytes of a received frame is the payload of its slot. -/
theorem replyOf_received (s u : State) {k : Nat} (hk : k < s.chips) :
    s.replyOf (u.received (s.chips * s.datagramBytes.toNat)) k =
      (u.rxByte ((s.chips - 1 - k) * s.datagramBytes.toNat + (s.datagramBytes.toNat - 2)) ++
        u.rxByte ((s.chips - 1 - k) * s.datagramBytes.toNat + (s.datagramBytes.toNat - 1)) : BitVec 16) := by
  have h : (s.chips - 1 - k) * s.datagramBytes.toNat + s.datagramBytes.toNat ≤ s.chips * s.datagramBytes.toNat := by
    rw [← Nat.succ_mul]
    exact Nat.mul_le_mul_right _ (by omega)
  rw [State.replyOf, take_drop_received u h]
  cases s.datagramBytes
  · exact payload_fromBytes_three ..
  · exact payload_fromBytes_four ..

/-- What a two-phase read answers and leaves. -/
theorem readPowerControl_eq (s : State) {k : Nat} (hk : k < s.chips) :
    s.readPowerControl k = (s.replyPayload k, s.afterRead k) := by
  have hlen : ∀ w, (s.frameToSel (.chip k) w).length = s.chips * s.datagramBytes.toNat := length_frameToSel s _
  have hnop : (s.afterTransaction (s.frameToSel (.chip k) 0x900000#32)).frameToSel (.chip k) 0x180000#32 =
      s.frameToAll 0x180000#32 := frameTo_nop ..
  have hall : (s.frameToAll 0x180000#32).length = s.chips * s.datagramBytes.toNat := length_frameTo ..
  rw [State.readPowerControl]
  simp only [writeReg_eq, transaction_eq, buildFrame_eq, powerReadWord_eq, nopWord_eq, hnop, hall]
  refine Prod.ext ?_ rfl
  change s.replyOf ((s.afterTransaction (s.frameToSel (.chip k) 0x900000#32)).received _) k = s.replyPayload k
  rw [replyOf_received s _ hk]
  simp only [rxByte_afterTransaction, hlen, State.replyPayload, Nat.add_assoc]

/-- What a status operation leaves. -/
theorem testStatus_eq (s : State) {k : Nat} (hk : k < s.chips) (bit : Nat) : s.testStatus k bit = s.afterStatus k bit := by
  simp only [State.testStatus, readPowerControl_eq s hk, State.afterStatus, State.answer, statusBit]
  cases (s.replyPayload k).getLsbD bit <;> rfl

end Sys2Proof.Machine
end

