-- ==== Sys2Proof/Laws/Exec.lean ====
section
/-! SUPPORT. What an operation can do, said once (`exec_cases`): it raises a fault, or it makes some register writes
after an optional change of the configuration, and answers a result. -/

namespace Sys2Proof.Machine

theorem sentWord_nop : SentWord 0x180000#32 := .inr (.inr (.inr (.inl rfl)))

/-! ### The two forms of addressing -/

/-- A word goes to the chips of a selector in one of the two forms (spec/41_addressing_and_transactions.md R105). -/
def SentTo : ChipSel → Word → Prop
  | .allChips, w => BroadcastWord w
  | .chip _, w => SingleWord w

theorem BroadcastWord.sentWord {w : Word} (h : BroadcastWord w) : SentWord w := by
  rcases h with ⟨p, hp, h⟩ | ⟨r, hr, h⟩ | h | h | h
  · exact .inl ⟨4, p, le_refl 4, hp, h⟩
  · exact .inr (.inl ⟨4, r, le_refl 4, hr, h⟩)
  · exact .inr (.inr (.inl h))
  · exact .inr (.inr (.inr (.inl h)))
  · exact .inr (.inr (.inr (.inr (.inl h))))

theorem SingleWord.sentWord {w : Word} (h : SingleWord w) : SentWord w := by
  rcases h with ⟨a, p, ha, hp, h⟩ | ⟨a, r, ha, hr, h⟩ | h | h
  · exact .inl ⟨a, p, by omega, hp, h⟩
  · exact .inr (.inl ⟨a, r, by omega, hr, h⟩)
  · exact .inr (.inr (.inr (.inr (.inl h))))
  · exact .inr (.inr (.inr (.inr (.inr h))))

theorem SentTo.sentWord {sel : ChipSel} {w : Word} (h : SentTo sel w) : SentWord w := by
  cases sel with
  | chip k => exact SingleWord.sentWord h
  | allChips => exact BroadcastWord.sentWord h

theorem SentTo.twoFormFrame {s : State} {sel : ChipSel} {w : Word} (h : SentTo sel w) (hs : s.hasSel sel) :
    TwoFormFrame s.chips s.datagramBytes (s.frameToSel sel w) := by
  cases sel with
  | chip k => exact .inr ⟨k, w, hs, h, rfl⟩
  | allChips => exact .inl ⟨w, h, rfl⟩

theorem sentTo_load (sel : ChipSel) : SentTo sel 0x1D0000#32 := by
  cases sel with
  | chip k => exact .inr (.inr (.inl rfl))
  | allChips => exact .inr (.inr (.inr (.inr rfl)))

theorem addrOf_ne_all (o : Nat) : addrOf o ≠ .all := by
  unfold addrOf
  split <;> decide

/-- The payload of a DAC write is below the address, and the addresses of one channel are 0 to 3. -/
theorem sentTo_dacWrite (t : Target) (p : BitVec 16) : SentTo (resolve t).1 (dacWriteWord (resolve t).2 p) := by
  have hp := p.isLt
  cases t with
  | all =>
    refine .inl ⟨p.toNat, hp, ?_⟩
    simp only [resolve, dacWriteWord_eq, ChannelAddr.code, BitVec.toNat_ofNat]
    omega
  | channel c =>
    have h := addrOf_ne_all (offsetOf c)
    refine .inl ⟨(addrOf (offsetOf c)).code, p.toNat, ?_, hp, ?_⟩
    · cases ha : addrOf (offsetOf c) <;> simp_all [ChannelAddr.code]
    · simp only [resolve, dacWriteWord_eq, BitVec.toNat_ofNat]
      cases addrOf (offsetOf c) <;> simp only [ChannelAddr.code] <;> omega

/-- The same of a range write. -/
theorem sentTo_rangeWrite (t : Target) (r : OutputRange) : SentTo (resolve t).1 (rangeWriteWord (resolve t).2 r) := by
  have hr : r.code ≤ 5 := by cases r <;> decide
  cases t with
  | all => exact .inr (.inl ⟨r.code, hr, by cases r <;> decide⟩)
  | channel c =>
    have h := addrOf_ne_all (offsetOf c)
    refine .inr (.inl ⟨(addrOf (offsetOf c)).code, r.code, ?_, hr, ?_⟩)
    · cases ha : addrOf (offsetOf c) <;> simp_all [ChannelAddr.code]
    · simp only [resolve]
      cases addrOf (offsetOf c) <;> cases r <;> decide

/-- The state after some register writes, in order. -/
def State.afterWrites (s : State) : List (ChipSel × Word) → State
  | [] => s
  | p :: ps => (s.afterTransaction (s.frameToSel p.1 p.2)).afterWrites ps

/-- Where the register writes of an operation start: the state itself, or what CONFIGURE or SET_OUTPUT_RANGE makes of
its configuration. -/
inductive Prepared (s : State) : Instr → State → Prop
  | same (i : Instr) : Prepared s i s
  | configure (n : Nat) (res : BitVec 2) (r : Resolution) (h : s.cfgValid = false) :
    Prepared s (.configure n res) (s.configured n r).setUpPins
  | range (t : Target) (range : BitVec 3) (p : Polarity) :
    Prepared s (.setOutputRange t range) { s with polarity := p }

/-- What an operation that completes leaves: each write is in one of the two forms, for chips that are there. -/
def Completes (i : Instr) (s t : State) : Prop :=
  ∃ (s0 : State) (ws : List (ChipSel × Word)) (r : Result),
    Prepared s i s0 ∧ (∀ p ∈ ws, s0.hasSel p.1 ∧ SentTo p.1 p.2) ∧ ws.length = transactionCount i ∧
    t = { s0.afterWrites ws with result := r }

/-- What an operation can answer, other than a stop. -/
def Answers (i : Instr) (s t : State) : Prop :=
  s.faultCode = .none ∧ ((∃ code, code ≠ .none ∧ t = s.faulted code) ∨ Completes i s t)

theorem answers_of_whenRunning {i : Instr} {s t : State} {k : Outcome} (h : whenRunning s k = .next t)
    (hk : k = .next t → s.faultCode = .none → Answers i s t) : Answers i s t := by
  by_cases hf : s.faultCode = .none
  · rw [whenRunning_running hf] at h
    exact hk h hf
  · rw [whenRunning_stuck hf] at h
    cases h

theorem answers_of_raise {i : Instr} {s t : State} {code : FaultCode} (hf : s.faultCode = .none) (hc : code ≠ .none)
    (h : (.next (s.raise code) : Outcome) = .next t) : Answers i s t := by
  cases h
  exact ⟨hf, .inl ⟨code, hc, rfl⟩⟩

theorem answers_of_whenConfigured {i : Instr} {s t : State} {k : Outcome} (h : whenConfigured s k = .next t)
    (hk : k = .next t → s.faultCode = .none → s.cfgValid = true → Answers i s t) : Answers i s t := by
  refine answers_of_whenRunning h fun h' hf => ?_
  by_cases hv : s.cfgValid = true
  · rw [if_pos hv] at h'
    exact hk h' hf hv
  · rw [if_neg hv] at h'
    exact answers_of_raise hf (by decide) h'

theorem answers_of_unlessFault {i : Instr} {s t : State} {code : FaultCode} {k : Outcome} (hf : s.faultCode = .none)
    (h : unlessFault code s k = .next t) (hk : code = .none → k = .next t → Answers i s t) : Answers i s t := by
  by_cases hc : code = .none
  · rw [unlessFault, if_pos hc] at h
    exact hk hc h
  · rw [unlessFault, if_neg hc] at h
    exact answers_of_raise hf hc h

theorem lt_chips_of_checkChip {k : Nat} {s : State} (h : checkChip k s = .none) : k < s.chips := by
  by_contra hk
  rw [checkChip, if_pos (Nat.not_lt.mp hk)] at h
  cases h

theorem hasTarget_of_checkTarget {t : Target} {s : State} (h : checkTarget t s = .none) : s.hasTarget t := by
  rcases checkTarget_cases t s with ⟨_, ht⟩ | ⟨hc, _⟩
  · exact ht
  · rw [hc] at h
    cases h

theorem chipOf_lt_of_checkChannel {c : Nat} {s : State} (h : checkChannel c s = .none) : chipOf c < s.chips := by
  by_contra hk
  have hc : s.channels ≤ c := by
    simp only [chipOf, State.channels, Config.channelsPerChip] at *
    omega
  rw [checkChannel, if_pos hc] at h
  cases h

theorem afterRead_eq_afterWrites (s : State) (k : Nat) :
    s.afterRead k = s.afterWrites [(.chip k, 0x900000#32), (.allChips, 0x180000#32)] := rfl

/-- A status operation completes with the two writes of its read. -/
theorem completes_of_status {i : Instr} {s t : State} {k bit : Nat} (hi : transactionCount i = 2) (hk : k < s.chips)
    (h : (.next (s.testStatus k bit) : Outcome) = .next t) : Completes i s t := by
  rw [testStatus_eq s hk] at h
  cases h
  refine ⟨s, [(.chip k, 0x900000#32), (.allChips, 0x180000#32)], _, .same i, ?_, hi.symm, rfl⟩
  intro p hp
  simp only [List.mem_cons, List.not_mem_nil, or_false] at hp
  rcases hp with rfl | rfl
  · exact ⟨hk, .inr (.inr (.inr rfl))⟩
  · exact ⟨trivial, .inr (.inr (.inr (.inl rfl)))⟩

/-- An operation that makes one register write and answers nothing new completes. -/
theorem completes_of_writeReg {i : Instr} {s s0 t : State} {sel : ChipSel} {w : Word} (hi : transactionCount i = 1)
    (hp : Prepared s i s0) (hs : s0.hasSel sel) (hw : SentTo sel w)
    (h : (.next (s0.writeReg sel w) : Outcome) = .next t) : Completes i s t := by
  rw [writeReg_eq] at h
  cases h
  exact ⟨s0, [(sel, w)], s0.result, hp, List.forall_mem_cons.2 ⟨⟨hs, hw⟩, List.forall_mem_nil _⟩, hi.symm, rfl⟩

/-- A command that only answers a result completes. -/
theorem completes_of_answer {i : Instr} {s t : State} {kind : ResultKind} {res : Word} (hi : transactionCount i = 0)
    (h : (.next (s.answer kind res) : Outcome) = .next t) : Completes i s t := by
  cases h
  exact ⟨s, [], ⟨kind, res⟩, .same i, by simp, hi.symm, rfl⟩

/-- Everything an operation can answer. -/
theorem exec_cases {i : Instr} {s t : State} (h : exec i s = .next t) : Answers i s t := by
  cases i with
  | configure n res =>
    refine answers_of_whenRunning h fun h hf => ?_
    by_cases hv : s.cfgValid = true
    · rw [if_pos hv] at h
      exact answers_of_raise hf (by decide) h
    · rw [if_neg hv] at h
      cases hr : Resolution.ofCode res with
      | none =>
        simp only [hr] at h
        exact answers_of_raise hf (by decide) h
      | some r =>
        simp only [hr, writeReg_eq, powerUpWord_eq] at h
        cases h
        exact ⟨hf, .inr ⟨_, [(.allChips, 0x10001F#32)], _, .configure n res r (by simpa using hv),
          List.forall_mem_cons.2 ⟨⟨trivial, .inr (.inr (.inl rfl))⟩, List.forall_mem_nil _⟩, rfl, rfl⟩⟩
  | channelCount => exact answers_of_whenConfigured h fun h hf _ => ⟨hf, .inr (completes_of_answer rfl h)⟩
  | setOutputRange x range =>
    refine answers_of_whenConfigured h fun h hf _ => answers_of_unlessFault hf h fun hc h => ⟨hf, .inr ?_⟩
    have hs : State.hasSel { s with polarity := (rangeMap range).1 } (resolve x).1 :=
      hasSel_resolve (s := s) (hasTarget_of_checkTarget hc)
    rw [writeReg_eq] at h
    cases h
    exact ⟨_, [((resolve x).1, rangeWriteWord (resolve x).2 (rangeMap range).2)], _, .range x range _,
      List.forall_mem_cons.2 ⟨⟨hs, sentTo_rangeWrite _ _⟩, List.forall_mem_nil _⟩, rfl, rfl⟩
  | minValue => exact answers_of_whenConfigured h fun h hf _ => ⟨hf, .inr (completes_of_answer rfl h)⟩
  | maxValue => exact answers_of_whenConfigured h fun h hf _ => ⟨hf, .inr (completes_of_answer rfl h)⟩
  | writeValue x value =>
    refine answers_of_whenConfigured h fun h hf _ => answers_of_unlessFault hf h fun hc h => ⟨hf, .inr ?_⟩
    have hs := hasSel_resolve (hasTarget_of_checkTarget hc)
    simp only [writeReg_eq, loadWord_eq] at h
    cases h
    exact ⟨s, [((resolve x).1, dacWriteWord (resolve x).2 (scale s.resolution value)), ((resolve x).1, 0x1D0000#32)],
      _, .same _, List.forall_mem_cons.2 ⟨⟨hs, sentTo_dacWrite _ _⟩,
        List.forall_mem_cons.2 ⟨⟨hs, sentTo_load _⟩, List.forall_mem_nil _⟩⟩, rfl, rfl⟩
  | channelPoweredUp c =>
    exact answers_of_whenConfigured h fun h hf _ => answers_of_unlessFault hf h fun hc h =>
      ⟨hf, .inr (completes_of_status rfl (chipOf_lt_of_checkChannel hc) h)⟩
  | referencePoweredUp k =>
    exact answers_of_whenConfigured h fun h hf _ => answers_of_unlessFault hf h fun hc h =>
      ⟨hf, .inr (completes_of_status rfl (lt_chips_of_checkChip hc) h)⟩
  | thermalShutdown k =>
    exact answers_of_whenConfigured h fun h hf _ => answers_of_unlessFault hf h fun hc h =>
      ⟨hf, .inr (completes_of_status rfl (lt_chips_of_checkChip hc) h)⟩
  | channelOverCurrent c =>
    exact answers_of_whenConfigured h fun h hf _ => answers_of_unlessFault hf h fun hc h =>
      ⟨hf, .inr (completes_of_status rfl (chipOf_lt_of_checkChannel hc) h)⟩
  | codecEncode d r a p => exact answers_of_whenRunning h fun h hf => ⟨hf, .inr (completes_of_answer rfl h)⟩
  | codecDecode b => exact answers_of_whenRunning h fun h hf => ⟨hf, .inr (completes_of_answer rfl h)⟩
  | illegalOperation op => exact answers_of_whenRunning h fun h hf => answers_of_raise hf (by decide) h
  | dgDacWrite a p =>
    exact answers_of_whenConfigured h fun h hf _ => answers_of_unlessFault hf h fun hc h =>
      ⟨hf, .inr (completes_of_writeReg rfl (.same _) (hasSel_resolve (hasTarget_of_checkTarget hc))
        (sentTo_dacWrite _ _) h)⟩
  | dgRangeWrite a r =>
    exact answers_of_whenConfigured h fun h hf _ => answers_of_unlessFault hf h fun hc h =>
      ⟨hf, .inr (completes_of_writeReg rfl (.same _) (hasSel_resolve (hasTarget_of_checkTarget hc))
        (sentTo_rangeWrite _ _) h)⟩
  | dgPowerUp =>
    exact answers_of_whenConfigured h fun h hf _ => ⟨hf, .inr (completes_of_writeReg rfl (.same _)
      (sel := .allChips) trivial (.inr (.inr (.inl powerUpWord_eq))) h)⟩
  | dgNop =>
    exact answers_of_whenConfigured h fun h hf _ => ⟨hf, .inr (completes_of_writeReg rfl (.same _)
      (sel := .allChips) trivial (.inr (.inr (.inr (.inl nopWord_eq)))) h)⟩
  | dgLoad =>
    exact answers_of_whenConfigured h fun h hf _ => answers_of_unlessFault hf h fun hc h =>
      ⟨hf, .inr (completes_of_writeReg rfl (.same _) (hasSel_of_checkSel hc)
        (by rw [loadWord_eq]; exact sentTo_load _) h)⟩
  | dgPowerRead =>
    exact answers_of_whenConfigured h fun h hf _ => answers_of_unlessFault hf h fun hc h =>
      ⟨hf, .inr (completes_of_writeReg rfl (.same _) (sel := .chip s.rowArg.chip) (lt_chips_of_checkChip hc)
        (.inr (.inr (.inr powerReadWord_eq))) h)⟩

/-- Every step is a reset, a wait, or an operation in a state that differs only in what waits. -/
theorem step_cases {s t : State} (h : step s = .next t) :
    (s.resetLine = true ∧ t = s.takeReset) ∨
    (s.resetLine = false ∧ s.faultCode = .none ∧ t = s) ∨
    (∃ (i : Instr) (p : Pending) (rest : List Pending), s.resetLine = false ∧ s.pending = p :: rest ∧
      decode p.word = .ok i ∧ exec i (s.accept p rest) = .next t) := by
  unfold step State.fetch at h
  by_cases hr : s.resetLine = true
  · simp only [hr, if_true] at h
    cases h
    exact .inl ⟨hr, rfl⟩
  · have hr' : s.resetLine = false := by simpa using hr
    rw [if_neg hr] at h
    cases hp : s.pending with
    | nil =>
      simp only [hp] at h
      by_cases hf : s.faultCode = .none
      · rw [State.waitForCommand, whenRunning_running hf] at h
        cases h
        exact .inr (.inl ⟨hr', hf, rfl⟩)
      · rw [State.waitForCommand, whenRunning_stuck hf] at h
        cases h
    | cons p rest =>
      simp only [hp] at h
      cases hd : decode p.word with
      | ok i =>
        simp only [hd] at h
        exact .inr (.inr ⟨i, p, rest, hr', rfl, hd, h⟩)
      | error why =>
        simp only [hd] at h
        by_cases hf : s.faultCode = .none
        · rw [State.refuseDatagram, whenRunning_running hf] at h
          cases h
        · rw [State.refuseDatagram, whenRunning_stuck hf] at h
          cases h

end Sys2Proof.Machine
end

