-- ==== Sys2Proof/Laws/PerInstr.lean ====
section
/-! SUPPORT. The family `MatchesTableRow`: the encoding of every well-formed operation matches its own row of
`spec/opcode_table.json`, by the row's match and mask. -/

namespace Sys2Proof

/-- A word matches a row of the table. -/
def TableWord.matchesRow : TableWord → Nat → Nat → Nat → Prop
  | .host w, nbits, value, mask => nbits = 48 ∧ w.toNat &&& mask = value
  | .wire w, nbits, value, mask => nbits = 24 ∧ w.toNat &&& mask = value

/-- Bits, match and mask of an operation's row; ILLEGAL_OPERATION stands for every OP that no other row has
(spec/30_encoding.md R75). -/
def rowOf : Instr → Nat × Nat × Nat
  | .configure _ _ => (48, 0x010000000000, 0xFF0000000000)
  | .channelCount => (48, 0x020000000000, 0xFF0000000000)
  | .setOutputRange _ _ => (48, 0x030000000000, 0xFF0000000000)
  | .minValue => (48, 0x040000000000, 0xFF0000000000)
  | .maxValue => (48, 0x050000000000, 0xFF0000000000)
  | .writeValue _ _ => (48, 0x060000000000, 0xFF0000000000)
  | .channelPoweredUp _ => (48, 0x070000000000, 0xFF0000000000)
  | .referencePoweredUp _ => (48, 0x080000000000, 0xFF0000000000)
  | .thermalShutdown _ => (48, 0x090000000000, 0xFF0000000000)
  | .channelOverCurrent _ => (48, 0x0A0000000000, 0xFF0000000000)
  | .codecEncode _ _ _ _ => (48, 0x0B0000000000, 0xFF0000000000)
  | .codecDecode _ => (48, 0x0C0000000000, 0xFF0000000000)
  | .illegalOperation op => (48, op.toNat * 0x010000000000, 0xFF0000000000)
  | .dgDacWrite _ _ => (24, 0x000000, 0xF80000)
  | .dgRangeWrite _ _ => (24, 0x080000, 0xF80000)
  | .dgPowerUp => (24, 0x10001F, 0xFFFFFF)
  | .dgNop => (24, 0x180000, 0xFFFFFF)
  | .dgLoad => (24, 0x1D0000, 0xFFFFFF)
  | .dgPowerRead => (24, 0x900000, 0xFFFFFF)

/-- Masking with a mask that stands `k` bits up. -/
theorem and_shifted_mask (x m k : Nat) : x &&& (m <<< k) = ((x >>> k) &&& m) <<< k := by
  apply Nat.eq_of_testBit_eq
  intro i
  by_cases hi : k ≤ i <;> simp [Nat.testBit_shiftLeft, Nat.testBit_shiftRight, hi]

/-- The OP field of a word of OP and 40 more bits. -/
theorem opField_eq {x op rest : Nat} (hx : x = op * 2 ^ 40 + rest) (hr : rest < 2 ^ 40) (ho : op < 2 ^ 8) :
    x &&& 0xFF0000000000 = op * 0x010000000000 := by
  have hd : x / 2 ^ 40 % 2 ^ 8 = op := by omega
  have hand := and_shifted_mask x (2 ^ 8 - 1) 40
  rw [Nat.and_two_pow_sub_one_eq_mod, Nat.shiftRight_eq_div_pow, hd] at hand
  have em : (0xFF0000000000 : Nat) = (2 ^ 8 - 1) <<< 40 := by decide
  have eo : (0x010000000000 : Nat) = 2 ^ 40 := by decide
  rw [em, eo, hand, Nat.shiftLeft_eq]

theorem opField_hostWord (op a : BitVec 8) (b : BitVec 32) :
    (hostWord op a b).toNat &&& 0xFF0000000000 = op.toNat * 0x010000000000 := by
  have ha := a.isLt
  have hb := b.isLt
  have hr : a.toNat * 2 ^ 32 + b.toNat < 2 ^ 40 := by omega
  exact opField_eq ((toNat_hostWord op a b).trans (Nat.add_assoc ..)) hr op.isLt

theorem hostWord_matchesRow (op a : BitVec 8) (b : BitVec 32) :
    (TableWord.host (hostWord op a b)).matchesRow 48 (op.toNat * 0x010000000000) 0xFF0000000000 := by
  have h := opField_hostWord op a b
  unfold TableWord.matchesRow
  exact ⟨rfl, h⟩

end Sys2Proof

namespace Sys2Proof.Laws.MatchesTableRow

/-- The operation's encoding matches its row, and an illegal OP is none of the other rows' codes. -/
def Statement (i : Instr) : Prop :=
  i.wellFormed = true →
    (encode i).matchesRow (rowOf i).1 (rowOf i).2.1 (rowOf i).2.2 ∧
    ∀ op, i = .illegalOperation op → op.toNat = 0 ∨ 13 ≤ op.toNat

theorem configure (n : Nat) (res : BitVec 2) : Statement (.configure n res) := fun _ =>
  ⟨hostWord_matchesRow _ _ _, nofun⟩

theorem channelCount : Statement (.channelCount) := fun _ =>
  ⟨hostWord_matchesRow _ _ _, nofun⟩

theorem setOutputRange (t : Target) (range : BitVec 3) : Statement (.setOutputRange t range) := fun _ =>
  ⟨hostWord_matchesRow _ _ _, nofun⟩

theorem minValue : Statement (.minValue) := fun _ =>
  ⟨hostWord_matchesRow _ _ _, nofun⟩

theorem maxValue : Statement (.maxValue) := fun _ =>
  ⟨hostWord_matchesRow _ _ _, nofun⟩

theorem writeValue (t : Target) (value : BitVec 32) : Statement (.writeValue t value) := fun _ =>
  ⟨hostWord_matchesRow _ _ _, nofun⟩

theorem channelPoweredUp (c : Nat) : Statement (.channelPoweredUp c) := fun _ =>
  ⟨hostWord_matchesRow _ _ _, nofun⟩

theorem referencePoweredUp (k : Nat) : Statement (.referencePoweredUp k) := fun _ =>
  ⟨hostWord_matchesRow _ _ _, nofun⟩

theorem thermalShutdown (k : Nat) : Statement (.thermalShutdown k) := fun _ =>
  ⟨hostWord_matchesRow _ _ _, nofun⟩

theorem channelOverCurrent (c : Nat) : Statement (.channelOverCurrent c) := fun _ =>
  ⟨hostWord_matchesRow _ _ _, nofun⟩

theorem codecEncode (d : BitVec 1) (r a : BitVec 3) (p : BitVec 32) : Statement (.codecEncode d r a p) := fun _ =>
  ⟨hostWord_matchesRow _ _ _, nofun⟩

theorem codecDecode (b : BitVec 32) : Statement (.codecDecode b) := fun _ =>
  ⟨hostWord_matchesRow _ _ _, nofun⟩

theorem illegalOperation (op : BitVec 8) : Statement (.illegalOperation op) := fun h =>
  ⟨hostWord_matchesRow _ _ _, fun _ e => by
    cases e
    simp [Instr.wellFormed, legalOp] at h
    omega⟩

theorem dgDacWrite (a : ChannelAddr) (p : BitVec 16) : Statement (.dgDacWrite a p) := fun _ =>
  ⟨by
    have hp := p.isLt
    have hw : (belowPad (dacWriteWord a p)).toNat < 2 ^ 19 := by
      simp only [belowPad, BitVec.extractLsb'_toNat, dacWriteWord_eq, BitVec.toNat_ofNat, Nat.shiftRight_zero]
      cases a <;> simp only [ChannelAddr.code] <;> omega
    have hz := and_shifted_mask (belowPad (dacWriteWord a p)).toNat (2 ^ 5 - 1) 19
    rw [Nat.shiftRight_eq_div_pow, Nat.div_eq_of_lt hw, Nat.zero_and, Nat.zero_shiftLeft] at hz
    exact ⟨rfl, hz⟩, nofun⟩

theorem dgRangeWrite (a : ChannelAddr) (r : OutputRange) : Statement (.dgRangeWrite a r) := fun _ =>
  ⟨⟨rfl, by cases a <;> cases r <;> decide⟩, nofun⟩

theorem dgPowerUp : Statement (.dgPowerUp) := fun _ =>
  ⟨⟨rfl, by decide⟩, nofun⟩

theorem dgNop : Statement (.dgNop) := fun _ =>
  ⟨⟨rfl, by decide⟩, nofun⟩

theorem dgLoad : Statement (.dgLoad) := fun _ =>
  ⟨⟨rfl, by decide⟩, nofun⟩

theorem dgPowerRead : Statement (.dgPowerRead) := fun _ =>
  ⟨⟨rfl, by decide⟩, nofun⟩

end Sys2Proof.Laws.MatchesTableRow
end

