-- ==== Sys2Proof/Laws/Trace.lean ====
section
/-! SUPPORT. What a transaction, and a run of register writes, does to the trace: its phases, its frames, its pin levels,
and what of it the received bytes can reach. -/

namespace Sys2Proof.Machine

/-! ### One transaction -/

theorem run_append (p : BusPhase) (xs ys : List Event) :
    p.run (xs ++ ys) = (p.run xs).bind fun q => q.run ys := by
  induction xs generalizing p with
  | nil => rfl
  | cons e es ih =>
    simp only [List.cons_append, BusPhase.run]
    cases p.after e with
    | none => rfl
    | some q => exact ih q

theorem run_transfers (tx rx : List Byte) :
    BusPhase.run .selected (List.zipWith Event.busXfer tx rx) = some .selected := by
  induction tx generalizing rx with
  | nil => rfl
  | cons b bs ih =>
    cases rx with
    | nil => rfl
    | cons r rs => exact ih rs

/-- A transaction starts and ends with the bus idle. -/
theorem run_transactionEvents (tx rx : List Byte) : BusPhase.run .idle (transactionEvents tx rx) = some .idle := by
  rw [transactionEvents, run_append]
  change (BusPhase.run .selected _) = _
  rw [run_append, run_transfers]
  rfl

theorem txFramesFrom_transfers (tx rx : List Byte) (h : rx.length = tx.length) (cur : List Byte) (es : List Event) :
    txFramesFrom cur (List.zipWith Event.busXfer tx rx ++ es) = txFramesFrom (cur ++ tx) es := by
  induction tx generalizing cur rx with
  | nil => simp
  | cons b bs ih =>
    cases rx with
    | nil => simp at h
    | cons r rs => simpa [txFramesFrom] using ih rs (by simpa using h) (cur ++ [b])

/-- A transaction's frame is the bytes it sends. -/
theorem txFramesFrom_transactionEvents (tx rx : List Byte) (h : rx.length = tx.length) (cur : List Byte)
    (es : List Event) : txFramesFrom cur (transactionEvents tx rx ++ es) = tx :: txFrames es := by
  simp only [transactionEvents, List.append_assoc, List.cons_append, List.nil_append, txFramesFrom]
  rw [txFramesFrom_transfers tx rx h]
  rfl

theorem lastLevel_append (pin : Pin) (before : PinLevel) (xs ys : List Event) :
    lastLevel pin before (xs ++ ys) = lastLevel pin (lastLevel pin before xs) ys := by
  induction xs generalizing before with
  | nil => rfl
  | cons e es ih =>
    cases e with
    | pinWrite p l => cases l <;> exact ih _
    | _ => exact ih _

theorem lastLevel_transfers (pin : Pin) (before : PinLevel) (tx rx : List Byte) :
    lastLevel pin before (List.zipWith Event.busXfer tx rx) = before := by
  induction tx generalizing rx with
  | nil => rfl
  | cons b bs ih =>
    cases rx with
    | nil => rfl
    | cons r rs => exact ih rs

/-- A transaction leaves chip select HIGH and the other pins as they were. -/
theorem lastLevel_transactionEvents (pin : Pin) (before : PinLevel) (tx rx : List Byte) :
    lastLevel pin before (transactionEvents tx rx) = if pin = .cs then .high else before := by
  rw [transactionEvents, lastLevel_append, lastLevel_append, lastLevel_transfers]
  cases pin <;> rfl

theorem map_sent_transfers (tx rx rx' : List Byte) (h : rx.length = rx'.length) :
    (List.zipWith Event.busXfer tx rx).map Event.sent = (List.zipWith Event.busXfer tx rx').map Event.sent := by
  induction tx generalizing rx rx' with
  | nil => rfl
  | cons b bs ih =>
    cases rx with
    | nil =>
      cases rx' with
      | nil => rfl
      | cons r rs => simp at h
    | cons r rs =>
      cases rx' with
      | nil => simp at h
      | cons r' rs' => simpa [Event.sent] using ih rs rs' (by simpa using h)

/-- What a transaction sends does not depend on what it receives. -/
theorem map_sent_transactionEvents (tx rx rx' : List Byte) (h : rx.length = rx'.length) :
    (transactionEvents tx rx).map Event.sent = (transactionEvents tx rx').map Event.sent := by
  simp only [transactionEvents, List.map_append, map_sent_transfers tx rx rx' h]

/-! ### Frames -/

/-- A frame of a datagram of the table is a frame of such datagrams, whatever chips it is for. -/
theorem frameOk_frameToSel (s : State) (sel : ChipSel) {w : Word} (hw : SentWord w) :
    FrameOk s.chips s.datagramBytes (s.frameToSel sel w) := by
  have key : ∀ named : Nat → Bool, FrameOk s.chips s.datagramBytes (frameTo s.chips s.datagramBytes named w) := by
    intro named
    refine ⟨(List.range s.chips).reverse.map fun k => if named k then w else 0x180000#32, by simp, ?_, ?_⟩
    · intro v hv
      obtain ⟨k, -, rfl⟩ := List.mem_map.1 hv
      cases named k
      · exact sentWord_nop
      · exact hw
    · rw [frameTo, List.flatMap_map]
  cases sel <;> exact key _

/-! ### A run of register writes -/

/-- The bytes each of some register writes sends. -/
def State.framesOf (s : State) (ws : List (ChipSel × Word)) : List (List Byte) :=
  ws.map fun p => s.frameToSel p.1 p.2

/-- What a run of register writes leaves: the configuration, the ports and the inputs as they were, chip select HIGH
after any write, and a trace that grows by closed transactions. -/
theorem afterWrites_spec (ws : List (ChipSel × Word)) (s : State) :
    ∃ new, s.afterWrites ws = { s with
        csLvl := if ws = [] then s.csLvl else .high
        trace := s.trace ++ new
        replies := s.replies.drop (ws.length * (s.chips * s.datagramBytes.toNat))
        xfers := s.xfers + ws.length * (s.chips * s.datagramBytes.toNat) } ∧
      BusPhase.run .idle new = some .idle ∧ txFrames new = s.framesOf ws ∧
      (∀ pin before, lastLevel pin before new = if pin = .cs ∧ ws ≠ [] then .high else before) := by
  induction ws generalizing s with
  | nil => exact ⟨[], by simp [State.afterWrites], rfl, rfl, by simp [lastLevel]⟩
  | cons p ps ih =>
    obtain ⟨new, he, hrun, htx, hlast⟩ := ih (s.afterTransaction (s.frameToSel p.1 p.2))
    have hlen := length_frameToSel s p.1 p.2
    have hmul : (ps.length + 1) * (s.chips * s.datagramBytes.toNat) =
      s.chips * s.datagramBytes.toNat + ps.length * (s.chips * s.datagramBytes.toNat) := by ring
    refine ⟨transactionEvents (s.frameToSel p.1 p.2) (s.received (s.frameToSel p.1 p.2).length) ++ new, ?_, ?_, ?_, ?_⟩
    · rw [State.afterWrites, he]
      simp only [State.afterTransaction, hlen, List.length_cons, hmul, List.drop_drop, List.append_assoc,
        Nat.add_assoc]
      cases ps <;> rfl
    · rw [run_append, run_transactionEvents]
      exact hrun
    · exact (txFramesFrom_transactionEvents _ _ (by simp) [] new).trans (congrArg _ htx)
    · intro pin before
      rw [lastLevel_append, lastLevel_transactionEvents, hlast]
      cases pin <;> simp

end Sys2Proof.Machine
end

