-- ==== Sys2Proof/Machine/Assembly.lean ====
section
/-! DEFINITION. The textual syntax of host commands (spec/30_encoding.md R77, R78): one line of text to one host command
word. The block never reads text; this is the syntax of test programs. What a line that the syntax does not give does is
the model's choice: it assembles to nothing (log 19). -/

namespace Sys2Proof.Machine

/-- The words of a line: blanks and commas separate, and a semicolon begins a comment, a DESIGN CHOICE (log 19). `cur` is
the word under way. -/
def lexLine (cur : List Char) : List Char → List (List Char)
  | [] => if cur = [] then [] else [cur]
  | c :: rest =>
    if c = ';' then (if cur = [] then [] else [cur])
    else if c = ' ' ∨ c = ',' then (if cur = [] then lexLine [] rest else cur :: lexLine [] rest)
    else lexLine (cur ++ [c]) rest

/-- The value of a digit, decimal or hexadecimal. -/
def digitValue (c : Char) : Option Nat :=
  if 48 ≤ c.toNat ∧ c.toNat ≤ 57 then some (c.toNat - 48)
  else if 65 ≤ c.toNat ∧ c.toNat ≤ 70 then some (c.toNat - 55)
  else if 97 ≤ c.toNat ∧ c.toNat ≤ 102 then some (c.toNat - 87)
  else none

/-- The value of some digits in a base, most significant first, after a value read so far. -/
def digitsValue (base acc : Nat) : List Char → Option Nat
  | [] => some acc
  | c :: rest =>
    match digitValue c with
    | some d => if d < base then digitsValue base (acc * base + d) rest else none
    | none => none

/-- `<chip_count>` and `<payload>`: decimal or `0x` hexadecimal. -/
def parseNat : List Char → Option Nat
  | [] => none
  | ['0', 'x'] => none
  | '0' :: 'x' :: digits => digitsValue 16 0 digits
  | digits => digitsValue 10 0 digits

/-- A number below a bound. R77 gives both forms to `<chip_count>`, `<value>` and `<payload>` alone; that the numbers of
`ch<n>`, `chip<k>`, `#<code>` and `<addr>` have both forms too is a DESIGN CHOICE (log 19). -/
def parseBelow (bound : Nat) (text : List Char) : Option Nat :=
  (parseNat text).filter fun n => decide (n < bound)

/-- `<value>`: a number that may be negative. That it must fit a signed 32-bit operand is a DESIGN CHOICE (log 19). -/
def parseValue : List Char → Option (BitVec 32)
  | '-' :: digits => (parseBelow (2 ^ 31 + 1) digits).map fun n => BitVec.ofInt 32 (-(n : Int))
  | digits => (parseBelow (2 ^ 31) digits).map (BitVec.ofNat 32)

/-- `ch<n>`, with A = n (the forms of n: log 19). -/
def parseChannel : List Char → Option (BitVec 8)
  | 'c' :: 'h' :: digits => (parseBelow 256 digits).map (BitVec.ofNat 8)
  | _ => none

/-- `chip<k>`, with A = k (the forms of k: log 19). -/
def parseChip : List Char → Option (BitVec 8)
  | 'c' :: 'h' :: 'i' :: 'p' :: digits => (parseBelow 256 digits).map (BitVec.ofNat 8)
  | _ => none

/-- `<target>`: `all` is A = 0xFF. -/
def parseTarget (text : List Char) : Option (BitVec 8) :=
  if text = "all".toList then some 0xFF#8 else parseChannel text

/-- `r12`, `r14` or `r16` (spec/30_encoding.md R73). -/
def parseResolution (text : List Char) : Option (BitVec 32) :=
  if text = "r12".toList then some 0
  else if text = "r14".toList then some 1
  else if text = "r16".toList then some 2
  else none

/-- `#<code>` with a code of 0 to 7 (the forms of the code, and the bound of a register's `#<n>`: log 19). -/
def parseCode : List Char → Option Nat
  | '#' :: digits => parseBelow 8 digits
  | _ => none

/-- `<range>`: a name of spec/30_encoding.md R60, or a code. -/
def parseRange (text : List Char) : Option (BitVec 32) :=
  if text = "UNI_5V".toList then some 0
  else if text = "UNI_10V".toList then some 1
  else if text = "UNI_10V8".toList then some 2
  else if text = "BIP_5V".toList then some 3
  else if text = "BIP_10V".toList then some 4
  else if text = "BIP_10V8".toList then some 5
  else (parseCode text).map (BitVec.ofNat 32)

/-- The direction of `encode`. -/
def parseDirection (text : List Char) : Option Nat :=
  if text = ['w'] then some dirWrite else if text = ['r'] then some dirRead else none

/-- The register of `encode`. -/
def parseRegister (text : List Char) : Option Nat :=
  if text = "dac".toList then some regDac
  else if text = "range".toList then some regOutputRange
  else if text = "power".toList then some regPowerControl
  else if text = "control".toList then some regControl
  else parseCode text

/-- `0x<hex bytes>` of `decode`. That any number of digits may stand is a DESIGN CHOICE (log 19). -/
def parseBytes : List Char → Option (BitVec 32)
  | '0' :: 'x' :: digits => (parseBelow (2 ^ 32) ('0' :: 'x' :: digits)).map (BitVec.ofNat 32)
  | _ => none

/-- An operation with a field A alone. -/
def wordOfA (op : BitVec 8) (a : Option (BitVec 8)) : Option HostWord := a.map fun a => hostWord op a 0

/-- An operation with both fields. -/
def wordOfAB (op : BitVec 8) (a : Option (BitVec 8)) (b : Option (BitVec 32)) : Option HostWord :=
  a.bind fun a => b.map fun b => hostWord op a b

/-- Field A of `encode` (spec/30_encoding.md R71). -/
def encodeFieldA (dir reg addr : Option Nat) : Option (BitVec 8) :=
  dir.bind fun d => reg.bind fun r => addr.map fun a => BitVec.ofNat 8 (d * 128 + r * 8 + a)

/-- The host command word of the words of a line (R77), with the two pseudo-operations (R78). -/
def assembleWords : List (List Char) → Option HostWord
  | [m] =>
    if m = "channel_count".toList then some (hostWord 0x02 0 0)
    else if m = "min_value".toList then some (hostWord 0x04 0 0)
    else if m = "max_value".toList then some (hostWord 0x05 0 0)
    else none
  | [m, x] =>
    if m = "channel_powered_up".toList then wordOfA 0x07 (parseChannel x)
    else if m = "reference_powered_up".toList then wordOfA 0x08 (parseChip x)
    else if m = "thermal_shutdown".toList then wordOfA 0x09 (parseChip x)
    else if m = "channel_over_current".toList then wordOfA 0x0A (parseChannel x)
    else if m = "decode".toList then wordOfAB 0x0C (some 0) (parseBytes x)
    else if m = "set_output_range_all".toList then wordOfAB 0x03 (some 0xFF) (parseRange x)
    else if m = "write_value_all".toList then wordOfAB 0x06 (some 0xFF) (parseValue x)
    else none
  | [m, x, y] =>
    if m = "configure".toList then
      wordOfAB 0x01 ((parseBelow 256 y).map (BitVec.ofNat 8)) (parseResolution x)
    else if m = "set_output_range".toList then wordOfAB 0x03 (parseTarget x) (parseRange y)
    else if m = "write_value".toList then wordOfAB 0x06 (parseTarget x) (parseValue y)
    else none
  | [m, d, r, a, p] =>
    if m = "encode".toList then
      wordOfAB 0x0B (encodeFieldA (parseDirection d) (parseRegister r) (parseBelow 8 a))
        ((parseBelow (2 ^ 32) p).map (BitVec.ofNat 32))
    else none
  | _ => none

/-- One line of text to one host command word. -/
def assemble (line : String) : Option HostWord := assembleWords (lexLine [] line.toList)

end Sys2Proof.Machine
end

