-- ==== Sys2Proof/Tests/Slice0.lean ====
section
/-! SUPPORT. The model's own tests. The expected values are those of spec/95_test_vectors.md, named by their number
there, or written out from the encodings of spec/30_encoding.md. The last part shows, for each statement that has
hypotheses, states and operands that meet them. -/

namespace Sys2Proof.Tests

open Sys2Proof Sys2Proof.Machine

/-! ### Helpers -/

/-- A block after a CONFIGURE for `n` chips at resolution `r`, with the bytes it is about to receive. -/
def block (n : BitVec 3) (r : Resolution) (replies : List Byte := []) : State :=
  { State.reset with
    cfgValid := true, chipCount := n, resolution := r, csLvl := .high, ldacLvl := .high, clrLvl := .high
    replies := replies }

/-- A block that has faulted. -/
def stuckBlock : State := { block 1 .r12 with faultCode := .channelOutOfRange }

/-- A block of two chips that runs a datagram for chip `k` alone. -/
def blockFor (k : Nat) : State := { block 2 .r12 with rowArg := ⟨k, false⟩ }

/-- A block of two chips that is given a datagram with an argument. -/
def given (arg : RowArg) (w : DatagramWord) : State := { block 2 .r12 with pending := [.datagram arg w] }

/-- The state a step or an operation answers. -/
def nextOf : Outcome → Option State
  | .next t => some t
  | .fault _ => none
  | .refused _ => none

/-- The state after one step on a host command word. -/
def ran (w : Nat) (s : State) : Option State := nextOf (step (s.withFetchWord 48 w))

/-- The frames sent and the result after one step on a host command word. -/
def shown (w : Nat) (s : State) : Option (List (List Byte) × Result) :=
  (ran w s).map fun t => (txFrames t.trace, t.result)

/-- The frames sent by one step. -/
def wired (s : State) : Option (List (List Byte)) := (nextOf (step s)).map fun t => txFrames t.trace

/-! ### Well-formedness: an ill-formed term for each check -/

theorem test_wf_channel_255 : (Target.channel 255).wellFormed = false := by decide
theorem test_wf_channel_254 : (Target.channel 254).wellFormed = true := by decide
theorem test_wf_configure : (Instr.configure 256 0).wellFormed = false := by decide
theorem test_wf_range_target : (Instr.setOutputRange (.channel 255) 0).wellFormed = false := by decide
theorem test_wf_write_target : (Instr.writeValue (.channel 255) 0).wellFormed = false := by decide
theorem test_wf_powered_up : (Instr.channelPoweredUp 256).wellFormed = false := by decide
theorem test_wf_reference : (Instr.referencePoweredUp 256).wellFormed = false := by decide
theorem test_wf_thermal : (Instr.thermalShutdown 256).wellFormed = false := by decide
theorem test_wf_over_current : (Instr.channelOverCurrent 256).wellFormed = false := by decide
theorem test_wf_legal_op_low : (Instr.illegalOperation 0x01).wellFormed = false := by decide
theorem test_wf_legal_op_high : (Instr.illegalOperation 0x0C).wellFormed = false := by decide

/-! ### Decoding: a word of each row -/

/-- C4. -/
theorem test_decode_configure : decodeTableWord 48 0x01FF00000002 = some (.configure 255 2) := by decide
/-- C8. -/
theorem test_decode_channel_count : decodeTableWord 48 0x020000000000 = some .channelCount := by decide
/-- R7: `B[2:0] = 4`. -/
theorem test_decode_set_output_range :
    decodeTableWord 48 0x0301FFFFFFFC = some (.setOutputRange (.channel 1) 4) := by decide
/-- F3. -/
theorem test_decode_min_value : decodeTableWord 48 0x040000000000 = some .minValue := by decide
/-- P1. -/
theorem test_decode_max_value : decodeTableWord 48 0x050000000000 = some .maxValue := by decide
/-- W10. -/
theorem test_decode_write_value : decodeTableWord 48 0x06FF00008000 = some (.writeValue .all 0x8000) := by decide
/-- S12: 0xFF is channel 255 here. -/
theorem test_decode_powered_up : decodeTableWord 48 0x07FF00000000 = some (.channelPoweredUp 255) := by decide
/-- S11. -/
theorem test_decode_reference : decodeTableWord 48 0x080200000000 = some (.referencePoweredUp 2) := by decide
/-- S6. -/
theorem test_decode_thermal : decodeTableWord 48 0x090000000000 = some (.thermalShutdown 0) := by decide
/-- S10. -/
theorem test_decode_over_current : decodeTableWord 48 0x0A0300000000 = some (.channelOverCurrent 3) := by decide
/-- E2, with `A[6]` set as in E10. -/
theorem test_decode_encode : decodeTableWord 48 0x0B4900000004 = some (.codecEncode 0 1 1 4) := by decide
/-- D1. -/
theorem test_decode_decode : decodeTableWord 48 0x0C0000900202 = some (.codecDecode 0x900202) := by decide
/-- F2 and F1. -/
theorem test_decode_illegal : decodeTableWord 48 0x0D1234567890 = some (.illegalOperation 0x0D) ∧
    decodeTableWord 48 0 = some (.illegalOperation 0) := by decide
/-- DIR 0, RSV 0, REG 000, ADDR 011, PAYLOAD 0xBEEF (W3). -/
theorem test_decode_dac_write : decodeTableWord 24 0b000000111011111011101111 = some (.dgDacWrite .chD 0xBEEF) := by
  decide
/-- DIR 0, RSV 0, REG 001, ADDR 100, PAYLOAD 5 (R3). -/
theorem test_decode_range_write : decodeTableWord 24 0b000011000000000000000101 = some (.dgRangeWrite .all .bip10V8) := by
  decide
/-- DIR 0, RSV 0, REG 010, ADDR 000, PAYLOAD 0x001F (E4). -/
theorem test_decode_power_up : decodeTableWord 24 0b000100000000000000011111 = some .dgPowerUp := by decide
/-- DIR 0, RSV 0, REG 011, ADDR 000, PAYLOAD 0 (E5). -/
theorem test_decode_nop : decodeTableWord 24 0b000110000000000000000000 = some .dgNop := by decide
/-- DIR 0, RSV 0, REG 011, ADDR 101, PAYLOAD 0 (E6). -/
theorem test_decode_load : decodeTableWord 24 0b000111010000000000000000 = some .dgLoad := by decide
/-- DIR 1, RSV 0, REG 010, ADDR 000, PAYLOAD 0 (E7). -/
theorem test_decode_power_read : decodeTableWord 24 0b100100000000000000000000 = some .dgPowerRead := by decide

/-- The datagrams of spec/30_encoding.md R64 and the words outside R63 are rejected, each by its name. -/
theorem test_decode_rejects :
    decodeWire 0x400000 = .error .reservedBitSet ∧ decodeWire 0x200000 = .error .reservedRegister ∧
    decodeWire 0x050000 = .error .reservedAddress ∧ decodeWire 0x0F0000 = .error .reservedAddress ∧
    decodeWire 0x080006 = .error .notARange ∧ decodeWire 0x10000F = .error .powerWriteNeverSent ∧
    decodeWire 0x190000 = .error .controlNeverSent ∧ decodeWire 0x1C0000 = .error .controlNeverSent ∧
    decodeWire 0x980000 = .error .readNeverSent := by decide

/-- Only words of 48 and 24 bits are in the table. -/
theorem test_decode_width : decodeTableWord 32 0x10001F = none := by decide

/-! ### Assembly: lines of the vectors and their host words -/

/-- W7. -/
theorem test_assemble_write_value : assemble "write_value ch0, -8192 ; W7" = some 0x0600FFFFE000 := by decide
/-- E9. -/
theorem test_assemble_encode : assemble "encode r, #7, 7, 0xFFFF" = some 0x0BBF0000FFFF := by decide
/-- P2, and spec/30_encoding.md R78. -/
theorem test_assemble_all : assemble "set_output_range_all BIP_10V" = some 0x03FF00000004 ∧
    assemble "set_output_range all, BIP_10V" = some 0x03FF00000004 := by decide
/-- P3 and S11. -/
theorem test_assemble_configure : assemble "configure r14, 4" = some 0x010400000001 ∧
    assemble "reference_powered_up chip2" = some 0x080200000000 := by decide

/-! ### One step of each operation -/

/-- C3: a count of 5 gives 1, not 4. -/
theorem test_configure_clamps : (ran 0x010500000001 State.reset).map
      (fun t => (t.cfg, t.csLvl, t.ldacLvl, t.clrLvl, txFrames t.trace, t.trace.take 6)) =
    some (0x00000013#32, .high, .high, .high, [[0x10, 0x00, 0x1F]],
      [.pinCfg .cs, .pinWrite .cs .high, .pinCfg .ldac, .pinWrite .ldac .high, .pinCfg .clr, .pinWrite .clr .high]) :=
  rfl
/-- C10: `B[31:2]` is ignored. -/
theorem test_configure_ignores_bits : shown 0x0104FFFFFFFC State.reset =
    some ([[0x10, 0x00, 0x1F, 0x10, 0x00, 0x1F, 0x10, 0x00, 0x1F, 0x10, 0x00, 0x1F]], ⟨.none, 0⟩) := by decide
/-- C8. -/
theorem test_channel_count : shown 0x020000000000 (block 3 .r16) = some ([], ⟨.uint, 12⟩) := by decide
/-- R2. -/
theorem test_set_output_range_bipolar : (ran 0x030500000003 (block 2 .r12)).map
    (fun t => (txFrames t.trace, t.polarity)) = some ([[0x09, 0x00, 0x03, 0x18, 0x00, 0x00]], .bipolar) := by decide
/-- R5: an unrecognized code acts as UNI_5V. -/
theorem test_set_output_range_unrecognized : (ran 0x030700000007 { block 2 .r12 with polarity := .bipolar }).map
    (fun t => (txFrames t.trace, t.polarity)) = some ([[0x0B, 0x00, 0x00, 0x18, 0x00, 0x00]], .unipolar) := by decide
/-- Section 2.5, R14 BIPOLAR. -/
theorem test_min_value : shown 0x040000000000 { block 1 .r14 with polarity := .bipolar } =
    some ([], ⟨.int, 0xFFFFE000⟩) := by decide
/-- Section 2.5, R16 UNIPOLAR. -/
theorem test_max_value : shown 0x050000000000 (block 1 .r16) = some ([], ⟨.int, 0x00010000⟩) := by decide
/-- W4. -/
theorem test_write_value_negative : shown 0x0602FFFFFFFF (block 1 .r12) =
    some ([[0x02, 0xFF, 0xF0], [0x1D, 0x00, 0x00]], ⟨.none, 0⟩) := by decide
/-- W11. -/
theorem test_write_value_third_chip : shown 0x060900000102 (block 4 .r16) =
    some ([[0x18, 0x00, 0x00, 0x01, 0x01, 0x02, 0x18, 0x00, 0x00, 0x18, 0x00, 0x00],
      [0x18, 0x00, 0x00, 0x1D, 0x00, 0x00, 0x18, 0x00, 0x00, 0x18, 0x00, 0x00]], ⟨.none, 0⟩) := by decide
/-- S8. -/
theorem test_powered_up_far_chip : shown 0x070600000000
      (block 2 .r12 [0, 0, 0, 0, 0, 0, 0x90, 0x00, 0x04, 0x12, 0x34, 0x52]) =
    some ([[0x90, 0x00, 0x00, 0x18, 0x00, 0x00], [0x18, 0x00, 0x00, 0x18, 0x00, 0x00]], ⟨.bool, 1⟩) := by decide
/-- S9. -/
theorem test_powered_up_near_chip : shown 0x070200000000
      (block 2 .r12 [0, 0, 0, 0, 0, 0, 0x90, 0x00, 0x04, 0x12, 0x34, 0x52]) =
    some ([[0x18, 0x00, 0x00, 0x90, 0x00, 0x00], [0x18, 0x00, 0x00, 0x18, 0x00, 0x00]], ⟨.bool, 0⟩) := by decide
/-- S5. -/
theorem test_reference_powered_up : shown 0x080000000000 (block 1 .r12 [0, 0, 0, 0x00, 0x00, 0x1F]) =
    some ([[0x90, 0x00, 0x00], [0x18, 0x00, 0x00]], ⟨.bool, 1⟩) := by decide
/-- S7, and a first transaction whose bytes say otherwise. -/
theorem test_thermal_shutdown : shown 0x090000000000 (block 1 .r12 [0xFF, 0xFF, 0xDF, 0x00, 0x00, 0x20]) =
    some ([[0x90, 0x00, 0x00], [0x18, 0x00, 0x00]], ⟨.bool, 1⟩) := by decide
/-- S3. -/
theorem test_over_current_set : shown 0x0A0200000000 (block 1 .r12 [0, 0, 0, 0x90, 0x02, 0x02]) =
    some ([[0x90, 0x00, 0x00], [0x18, 0x00, 0x00]], ⟨.bool, 1⟩) := by decide
/-- S4. -/
theorem test_over_current_clear : shown 0x0A0100000000 (block 1 .r12 [0, 0, 0, 0x90, 0x02, 0x02]) =
    some ([[0x90, 0x00, 0x00], [0x18, 0x00, 0x00]], ⟨.bool, 0⟩) := by decide
/-- E9: reserved codes are taken raw and RSV stays 0. -/
theorem test_encode_raw : shown 0x0BBF0000FFFF State.reset = some ([], ⟨.bytes, 0xBFFFFF⟩) := by decide
/-- E11: at 4 bytes, as the bytes `00 10 00 1F`. -/
theorem test_encode_four_bytes : shown 0x0B100000001F { State.reset with datagramBytes := .four } =
    some ([], ⟨.bytes, 0x0010001F⟩) := by decide
/-- D6: `B[31:24]` is ignored at 3 bytes. -/
theorem test_decode_three_bytes : shown 0x0C00AA123456 State.reset = some ([], ⟨.fields, 0x123456⟩) := by decide
/-- D5: PAD is dropped at 4 bytes. -/
theorem test_decode_four_bytes : shown 0x0C0012345678 { State.reset with datagramBytes := .four } =
    some ([], ⟨.fields, 0x345678⟩) := by decide
/-- F2. -/
theorem test_illegal_operation : ran 0x0D1234567890 (block 1 .r12) =
    some { block 1 .r12 with faultCode := .illegalOperation, result := ⟨.fault, 0⟩ } := by decide
/-- The bytes of R63 for DG_DAC_WRITE(B, 0x1230), for chip 0 of two. -/
theorem test_dg_dac_write : wired (given ⟨0, false⟩ 0x011230) = some [[0x18, 0x00, 0x00, 0x01, 0x12, 0x30]] := by decide
/-- ALL goes to every chip, whatever the argument (spec/41_addressing_and_transactions.md R105). -/
theorem test_dg_dac_write_all : wired (given ⟨1, false⟩ 0x048000) = some [[0x04, 0x80, 0x00, 0x04, 0x80, 0x00]] := by
  decide
/-- The bytes of R63 for DG_RANGE_WRITE(C, 4), for chip 1 of two. -/
theorem test_dg_range_write : wired (given ⟨1, false⟩ 0x0A0004) = some [[0x0A, 0x00, 0x04, 0x18, 0x00, 0x00]] := by
  decide
/-- DG_POWER_UP goes to every chip, whatever the argument (spec/42_configuration.md R108). -/
theorem test_dg_power_up : wired (given ⟨1, false⟩ 0x10001F) = some [[0x10, 0x00, 0x1F, 0x10, 0x00, 0x1F]] := by decide
/-- The bytes of R63 for DG_NOP. -/
theorem test_dg_nop : wired (given ⟨0, false⟩ 0x180000) = some [[0x18, 0x00, 0x00, 0x18, 0x00, 0x00]] := by decide
/-- The bytes of R63 for DG_LOAD at 4 bytes, after 0x00, for every chip. -/
theorem test_dg_load : wired (State.withFetchWord { block 1 .r12 with datagramBytes := .four } 24 0x1D0000) =
    some [[0x00, 0x1D, 0x00, 0x00]] := by decide
/-- DG_LOAD for one chip, the second transaction of a WRITE_VALUE of one channel (spec/43_output.md R117). -/
theorem test_dg_load_one_chip : wired (given ⟨0, false⟩ 0x1D0000) = some [[0x18, 0x00, 0x00, 0x1D, 0x00, 0x00]] := by
  decide
/-- The bytes of R63 for DG_POWER_READ, for chip 1 of two. -/
theorem test_dg_power_read : wired (given ⟨1, false⟩ 0x900000) = some [[0x90, 0x00, 0x00, 0x18, 0x00, 0x00]] := by decide

/-- The whole trace of one transaction, in the order of spec/41_addressing_and_transactions.md R97. -/
theorem test_transaction_trace : (block 1 .r12 [7, 8, 9]).writeReg .allChips loadWord =
    { block 1 .r12 with
      xfers := 3
      trace := [.busBegin Config.spiClockHz .msbFirst Config.spiMode, .pinWrite .cs .low, .busXfer 0x1D 7,
        .busXfer 0x00 8, .busXfer 0x00 9, .pinWrite .cs .high, .busEnd] } := rfl
/-- F4: NOT_CONFIGURED comes before CHANNEL_OUT_OF_RANGE. -/
theorem test_fault_not_configured_first : (ran 0x06C800000000 State.reset).map State.faultCode =
    some .notConfigured := by decide
/-- F5: ALREADY_CONFIGURED comes before INVALID_RESOLUTION. -/
theorem test_fault_already_configured_first : (ran 0x010100000003 (block 1 .r12)).map State.faultCode =
    some .alreadyConfigured := by decide
/-- F6. -/
theorem test_stuck : step (stuckBlock.withFetchWord 48 0x0B0000000000) = .fault .stuck := rfl

/-! ### Every statement's hypotheses are met -/

theorem witness_DecodeOfEncodeIsTheOperation :
    (Instr.configure 255 3).wellFormed = true ∧ (Instr.writeValue (.channel 254) 0x80000000).wellFormed = true ∧
    (Instr.illegalOperation 0x0D).wellFormed = true ∧ (Instr.dgRangeWrite .all .bip10V8).wellFormed = true := by decide

theorem witness_HostWordsDecodeToWellFormedOperations :
    decode (.host 0x03FE00000007) = .ok (.setOutputRange (.channel 254) 7) ∧ decode (.wire 0x04FFFF) =
      .ok (.dgDacWrite .all 0xFFFF) := ⟨rfl, rfl⟩

theorem witness_WireWordsDecodeExactlyWhenTheBlockSendsThem :
    decode (.wire 0x0C0005) = .ok (.dgRangeWrite .all .bip10V8) ∧ decode (.wire 0x0C0006) = .error .notARange :=
  ⟨rfl, rfl⟩

theorem witness_UnassignedHostBitsAreIgnored :
    (0xFFFFFFFC#32).extractLsb' 0 2 = (0#32).extractLsb' 0 2 ∧ (0xFFFFFFF8#32).extractLsb' 0 3 = (0#32).extractLsb' 0 3 ∧
    (∀ i, i < 8 → i ≠ 6 → (0x49#8).getLsbD i = (0x09#8).getLsbD i) ∧
    (∀ i, i < 8 * State.reset.datagramBytes.toNat → (0xAA123456#32).getLsbD i = (0x00123456#32).getLsbD i) := by decide

theorem witness_IllegalOpcodesFaultAndDoNothingElse :
    ((0x00FFFFFFFFFF : HostWord).extractLsb' 40 8).toNat = 0 ∧
    13 ≤ ((0x0D0000000000 : HostWord).extractLsb' 40 8).toNat ∧
    1 ≤ ((0x010000000000 : HostWord).extractLsb' 40 8).toNat ∧
    ((0x0C0000000000 : HostWord).extractLsb' 40 8).toNat ≤ 12 ∧ State.reset.faultCode = .none := by decide

theorem witness_EncodeAnswersThePackedBytes : stuckBlock.faultCode ≠ .none ∧ State.reset.faultCode = .none := by decide
theorem witness_DecodeAnswersTheFieldsWithoutPadding : stuckBlock.faultCode ≠ .none ∧ State.reset.faultCode = .none := by
  decide

/-- The counts 0, 1, 4 and 5 and the resolution codes 0, 2 and 3; the recorded state `c` is given by an equation, so it
is met by reflexivity. -/
theorem witness_ConfigureRecordsSetsUpPinsAndPowersUp :
    stuckBlock.faultCode ≠ .none ∧
    ((block 1 .r12).faultCode = .none ∧ (block 1 .r12).cfgValid = true) ∧
    (State.reset.faultCode = .none ∧ State.reset.cfgValid = false ∧ (3#2 : BitVec 2) = 3#2) ∧
    ((0#2, Resolution.r12) ∈ [(0#2, Resolution.r12), (1#2, Resolution.r14), (2#2, Resolution.r16)] ∧
      (2#2, Resolution.r16) ∈ [(0#2, Resolution.r12), (1#2, Resolution.r14), (2#2, Resolution.r16)]) ∧
    ((1, 1) ∈ [(1, 1), (2, 2), (3, 3), (4, 4)] ∧ (4, 4) ∈ [(1, 1), (2, 2), (3, 3), (4, 4)] ∧
      (((0 : Nat) = 0 ∨ 5 ≤ 0) ∧ 1 = 1) ∧ (((5 : Nat) = 0 ∨ 5 ≤ 5) ∧ 1 = 1)) := by decide

theorem witness_ChannelCountAnswersFourPerChip : stuckBlock.faultCode ≠ .none ∧
    (State.reset.faultCode = .none ∧ State.reset.cfgValid = false) ∧
    ((block 4 .r16).faultCode = .none ∧ (block 4 .r16).cfgValid = true) := by decide

/-- Channels 3 and 4 of a block of one chip, and channels 15 and 16 of a block of four. -/
theorem witness_targets :
    (block 1 .r12).hasTarget (.channel 3) ∧ ¬ (block 1 .r12).hasTarget (.channel 4) ∧
    (block 4 .r12).hasTarget (.channel 15) ∧ ¬ (block 4 .r12).hasTarget (.channel 16) ∧
    (block 4 .r12).hasTarget .all :=
  ⟨(by decide : 3 < 4), (by decide : ¬ 4 < 4), (by decide : 15 < 16), (by decide : ¬ 16 < 16), trivial⟩

theorem witness_SetOutputRangeRecordsPolarityAndWritesTheRange :
    (stuckBlock.faultCode ≠ .none ∧ (State.reset.faultCode = .none ∧ State.reset.cfgValid = false)) ∧
    ((block 4 .r12).faultCode = .none ∧ (block 4 .r12).cfgValid = true ∧
      ¬ (block 4 .r12).hasTarget (.channel 16)) ∧
    ((block 4 .r12).hasTarget (.channel 15) ∧
      [(Polarity.unipolar, 0), (.unipolar, 1), (.unipolar, 2), (.bipolar, 3), (.bipolar, 4), (.bipolar, 5),
        (.unipolar, 0), (.unipolar, 0)][(0#3).toNat]? = some (.unipolar, 0) ∧
      [(Polarity.unipolar, 0), (.unipolar, 1), (.unipolar, 2), (.bipolar, 3), (.bipolar, 4), (.bipolar, 5),
        (.unipolar, 0), (.unipolar, 0)][(7#3).toNat]? = some (.unipolar, 0)) :=
  ⟨by decide, ⟨rfl, rfl, (by decide : ¬ 16 < 16)⟩, (by decide : 15 < 16), rfl, rfl⟩

theorem witness_MinValueAnswersTheLowestValue : stuckBlock.faultCode ≠ .none ∧
    (State.reset.faultCode = .none ∧ State.reset.cfgValid = false) ∧
    ((block 1 .r16).faultCode = .none ∧ (block 1 .r16).cfgValid = true ∧
      ((block 1 .r16).resolution, (block 1 .r16).polarity, (0 : Int)) ∈
        [(Resolution.r12, Polarity.unipolar, (0 : Int)), (.r14, .unipolar, 0), (.r16, .unipolar, 0),
          (.r12, .bipolar, -2048), (.r14, .bipolar, -8192), (.r16, .bipolar, -32768)]) := by decide

theorem witness_MaxValueAnswersTheHighestValue : stuckBlock.faultCode ≠ .none ∧
    (State.reset.faultCode = .none ∧ State.reset.cfgValid = false) ∧
    ((block 1 .r16).faultCode = .none ∧ (block 1 .r16).cfgValid = true ∧
      ((block 1 .r16).resolution, (block 1 .r16).polarity, (65536 : Int)) ∈
        [(Resolution.r12, Polarity.unipolar, (4095 : Int)), (.r14, .unipolar, 16383), (.r16, .unipolar, 65536),
          (.r12, .bipolar, 2047), (.r14, .bipolar, 8191), (.r16, .bipolar, 32767)]) := by decide

theorem witness_WriteValueSendsTheScaledValueThenTheLoad :
    (stuckBlock.faultCode ≠ .none ∧ (State.reset.faultCode = .none ∧ State.reset.cfgValid = false)) ∧
    ((block 1 .r14).faultCode = .none ∧ (block 1 .r14).cfgValid = true ∧
      ¬ (block 1 .r14).hasTarget (.channel 4)) ∧
    ((block 1 .r14).hasTarget (.channel 3) ∧
      ((block 1 .r14).resolution, 2) ∈ [(Resolution.r12, 4), (.r14, 2), (.r16, 0)]) :=
  ⟨by decide, ⟨rfl, rfl, (by decide : ¬ 4 < 4)⟩, (by decide : 3 < 4), by decide⟩

theorem witness_SixteenBitUnipolarMaximumIsSentAsZero :
    (block 4 .r16).faultCode = .none ∧ (block 4 .r16).cfgValid = true ∧ (block 4 .r16).resolution = .r16 ∧
    (block 4 .r16).polarity = .unipolar ∧ 15 < (block 4 .r16).chips * 4 := by decide

theorem witness_LaterBoundsFollowTheLastRangeSet :
    ∃ s1, exec (.setOutputRange .all 5) (block 2 .r16) = .next s1 ∧ s1.faultCode = .none := ⟨_, rfl, rfl⟩

theorem witness_FramesHoldOneSlotPerChipFurthestFirst : 0 < (block 4 .r12).chips ∧ 3 < (block 4 .r12).chips := by decide

/-- Channels 15 and 16 of a block of four chips. -/
theorem witness_ChannelPoweredUpTestsItsPowerBit : stuckBlock.faultCode ≠ .none ∧
    (State.reset.faultCode = .none ∧ State.reset.cfgValid = false) ∧
    ((block 4 .r12).faultCode = .none ∧ (block 4 .r12).cfgValid = true ∧ (block 4 .r12).chips * 4 ≤ 16 ∧
      15 < (block 4 .r12).chips * 4) := by decide

/-- Chips 3 and 4 of a block of four. -/
theorem witness_ReferencePoweredUpTestsTheReferenceBit : stuckBlock.faultCode ≠ .none ∧
    (State.reset.faultCode = .none ∧ State.reset.cfgValid = false) ∧
    ((block 4 .r12).faultCode = .none ∧ (block 4 .r12).cfgValid = true ∧ (block 4 .r12).chips ≤ 4 ∧
      3 < (block 4 .r12).chips) := by decide

/-- Chips 0 and 1 of a block of one. -/
theorem witness_ThermalShutdownTestsTheThermalBit : stuckBlock.faultCode ≠ .none ∧
    (State.reset.faultCode = .none ∧ State.reset.cfgValid = false) ∧
    ((block 1 .r12).faultCode = .none ∧ (block 1 .r12).cfgValid = true ∧ (block 1 .r12).chips ≤ 1 ∧
      0 < (block 1 .r12).chips) := by decide

/-- Channels 3 and 4 of a block of one chip. -/
theorem witness_ChannelOverCurrentTestsItsOverCurrentBit : stuckBlock.faultCode ≠ .none ∧
    (State.reset.faultCode = .none ∧ State.reset.cfgValid = false) ∧
    ((block 1 .r12).faultCode = .none ∧ (block 1 .r12).cfgValid = true ∧ (block 1 .r12).chips * 4 ≤ 4 ∧
      3 < (block 1 .r12).chips * 4) := by decide

/-- Chip 1 of two, and all chips whatever the chip index. -/
theorem witness_EachDatagramIsOneRegisterWrite :
    (blockFor 1).faultCode = .none ∧ (blockFor 1).cfgValid = true ∧
    (ChannelAddr.chA = .all ∨ (blockFor 1).rowArg.chip < (blockFor 1).chips) ∧
    (ChannelAddr.all = .all ∨ (blockFor 2).rowArg.chip < (blockFor 2).chips) ∧
    ((block 2 .r12).rowArg.all = true ∨ (block 2 .r12).rowArg.chip < (block 2 .r12).chips) ∧
    (blockFor 1).rowArg.chip < (blockFor 1).chips := by decide

/-- Chip 2 of a block of two. -/
theorem witness_DatagramsNeedAConfiguredBlockAndAPresentChip :
    (State.reset.faultCode = .none ∧ State.reset.cfgValid = false ∧ isHostCommand .dgLoad = false) ∧
    (blockFor 2).faultCode = .none ∧ (blockFor 2).cfgValid = true ∧ (blockFor 2).chips ≤ (blockFor 2).rowArg.chip ∧
    ChannelAddr.chD ≠ .all ∧ (blockFor 2).rowArg.all = false := by decide

/-- A channel with the argument of its chip, and broadcast with that of all chips. -/
theorem witness_WriteValueIsADacWriteThenALoad :
    (block 1 .r12).faultCode = .none ∧ (block 1 .r12).cfgValid = true ∧
    ((block 1 .r12).hasTarget (.channel 3) ∧ (⟨0, false⟩ : RowArg).all = false ∧ (resolve (.channel 3)).1 = .chip 0) ∧
    (block 1 .r12).hasTarget .all ∧ (⟨0, true⟩ : RowArg).all = true ∧ (resolve .all).1 = .allChips :=
  ⟨rfl, rfl, ⟨(by decide : 3 < 4), rfl, rfl⟩, trivial, rfl, rfl⟩

theorem witness_StatusReadIsAPowerReadThenANop :
    statusChip (.channelOverCurrent 15) = some 3 ∧ (block 4 .r12).faultCode = .none ∧ (block 4 .r12).cfgValid = true ∧
    3 < (block 4 .r12).chips := by decide

theorem witness_AFaultedBlockIsStuck : stuckBlock.faultCode ≠ .none ∧ stuckBlock.resetLine = false ∧
    ({ stuckBlock with resetLine := true } : State).faultCode ≠ .none := by decide

theorem witness_HostFaultsFollowThePriorityOrder :
    isHostCommand (.referencePoweredUp 4) = true ∧ stuckBlock.faultCode ≠ .none ∧
    ((block 4 .r12).faultCode = .none ∧ faultDue (block 4 .r12) (.referencePoweredUp 4) ≠ .none) ∧
    faultDue (block 4 .r12) (.referencePoweredUp 3) = .none := by decide

theorem witness_AFaultChangesOnlyFaultAndTheResult :
    ∃ t, exec (.writeValue (.channel 4) 7) (block 1 .r12) = .next t ∧ t.faultCode ≠ .none := ⟨_, rfl, by decide⟩

theorem witness_ResetAloneClearsFaultAndConfiguration :
    ({ stuckBlock with resetLine := true } : State).resetLine = true ∧ (block 1 .r12).resetLine = false ∧
    ∃ t, step (block 1 .r12) = .next t := ⟨rfl, rfl, _, rfl⟩

theorem witness_EveryStepKeepsTheConfigurationInvariant :
    (block 1 .r12).ConfigOk ∧ ∃ t, step ((block 1 .r12).withFetchWord 48 0x060000000123) = .next t :=
  ⟨fun _ => by decide, _, rfl⟩

theorem witness_EveryStepKeepsTransactionsClosed :
    WellFramed (block 1 .r12).trace ∧ ∃ t, step ((block 1 .r12).withFetchWord 48 0x060000000123) = .next t :=
  ⟨rfl, _, rfl⟩

theorem witness_TheWireCarriesOnlyTheSixDatagrams :
    ∃ t, step ((block 4 .r16).withFetchWord 48 0x060900000102) = .next t := ⟨_, rfl⟩

/-- A step that goes on, one that is stuck and one that is refused. -/
theorem witness_NoStepReadsAnEarlierDatagramsArgument :
    (∃ t, step (given ⟨1, false⟩ 0x001230) = .next t) ∧ step stuckBlock = .fault .stuck ∧
    step (given ⟨1, false⟩ 0x1C0000) = .refused (.neverSent .controlNeverSent) := ⟨⟨_, rfl⟩, rfl, rfl⟩

theorem witness_EveryFrameHasOneOfTheTwoForms : ∃ t, step (given ⟨1, false⟩ 0x0C0005) = .next t := ⟨_, rfl⟩

theorem witness_PinLevelsRecordTheLastWrite : ∃ t, exec (.configure 4 2) State.reset = .next t := ⟨_, rfl⟩

theorem witness_EachOperationMakesItsTransactions :
    ∃ t, exec (.thermalShutdown 3) (block 4 .r12) = .next t ∧ t.faultCode = .none := ⟨_, rfl, rfl⟩

theorem witness_OnlyConfigureAndSetOutputRangeWriteConfiguration :
    ((∀ n r, Instr.dgLoad ≠ .configure n r) ∧ (∀ x r, Instr.dgLoad ≠ .setOutputRange x r)) ∧
    (block 1 .r12).cfgValid = true ∧ ∃ t, exec .dgLoad (block 1 .r12) = .next t :=
  ⟨⟨nofun, nofun⟩, rfl, _, rfl⟩

theorem witness_OperationsLeaveParametersAndInputsAlone :
    ∃ t, exec (.writeValue .all 0) (block 4 .r12 [1, 2, 3]) = .next t ∧ t.faultCode = .none := ⟨_, rfl, rfl⟩

theorem witness_CompletedCommandsAnswerTheirKind :
    isHostCommand (.thermalShutdown 0) = true ∧ kindReturned (.thermalShutdown 0) = .bool ∧
    kindReturned (.writeValue .all 0) = .none ∧
    (∃ t, exec (.thermalShutdown 0) (block 1 .r12) = .next t ∧ t.faultCode = .none) ∧
    ∃ t, exec (.writeValue .all 0) (block 1 .r12) = .next t ∧ t.faultCode = .none :=
  ⟨rfl, rfl, rfl, ⟨_, rfl, rfl⟩, _, rfl, rfl⟩

theorem witness_UnconfiguredBlockReadsNoConfiguration :
    State.reset.cfgValid = false ∧ (∃ t, exec (.configure 4 2) State.reset = .next t) ∧
    ({ State.reset with faultCode := .notConfigured } : State).cfgValid = false ∧
    exec .minValue { State.reset with faultCode := .notConfigured } = .fault .stuck := ⟨rfl, ⟨_, rfl⟩, rfl, rfl⟩

theorem witness_ReceivedBytesReachOnlyStatusResults :
    (∃ t, exec (.channelPoweredUp 3) (block 1 .r12 [1, 2, 3]) = .next t) ∧
    isStatusOperation (.writeValue .all 0) = false := ⟨⟨_, rfl⟩, rfl⟩

/-- A host command and a datagram at the head of the waiting commands. -/
theorem witness_AStepRunsTheDecodedCommand :
    ((block 1 .r12).withFetchWord 48 0x050000000000).resetLine = false ∧
    ((block 1 .r12).withFetchWord 48 0x050000000000).pending = [.command 0x050000000000] ∧
    decode (Pending.command 0x050000000000).word = .ok .maxValue ∧ Instr.maxValue.wellFormed = true ∧
    ((block 1 .r12).withFetchWord 24 0x1D0000).pending = [.datagram ⟨0, true⟩ 0x1D0000] ∧
    decode (Pending.datagram ⟨0, true⟩ 0x1D0000).word = .ok .dgLoad := ⟨rfl, rfl, rfl, rfl, rfl, rfl⟩

theorem witness_AnIdleBlockWaits :
    (block 1 .r12).resetLine = false ∧ (block 1 .r12).pending = [] ∧ (block 1 .r12).faultCode = .none := by decide

theorem witness_AWordNeverSentIsRefused :
    ((block 1 .r12).withFetchWord 24 0x1C0000).resetLine = false ∧
    ((block 1 .r12).withFetchWord 24 0x1C0000).faultCode = .none ∧
    ((block 1 .r12).withFetchWord 24 0x1C0000).pending = [.datagram ⟨0, true⟩ 0x1C0000] ∧
    decodeWire 0x1C0000 = .error .controlNeverSent := ⟨rfl, rfl, rfl, by decide⟩

end Sys2Proof.Tests
end

section
/-! The family `10_state.md`: the state after reset, field by field as spec/10_state.md R34 tabulates it. -/

namespace Sys2Proof.Machine

/-! ### `State.reset` -/

@[simp] theorem State.reset_cfgValid : State.reset.cfgValid = false := rfl
@[simp] theorem State.reset_faultCode : State.reset.faultCode = .none := rfl
@[simp] theorem State.reset_csLvl : State.reset.csLvl = .unknown := rfl
@[simp] theorem State.reset_ldacLvl : State.reset.ldacLvl = .unknown := rfl
@[simp] theorem State.reset_clrLvl : State.reset.clrLvl = .unknown := rfl

/-- Settles O31: one field lemma for each value that R34 states. -/
theorem resetLeavesTheStatedValues : Obligations.ResetLeavesTheStatedValues :=
  ⟨State.reset_cfgValid, State.reset_faultCode, State.reset_csLvl, State.reset_ldacLvl, State.reset_clrLvl⟩

end Sys2Proof.Machine
end

section
/-! The family `30_encoding.md`: what the decoder reads of a host word (spec/30_encoding.md R71, R75, R76), and what a
step puts on the wire (R63). -/

namespace Sys2Proof

/-! ### The decoder of host words

One equation per OP whose word has bits that R71 assigns to no operand: they name the bits that are read. -/

@[simp] theorem decode_configureWord (a : BitVec 8) (b : BitVec 32) :
    decode (.host (hostWord 0x01 a b)) = .ok (.configure a.toNat (b.extractLsb' 0 2)) := by
  simp [decode, decodeHost]

@[simp] theorem decode_channelCountWord (a : BitVec 8) (b : BitVec 32) :
    decode (.host (hostWord 0x02 a b)) = .ok .channelCount := by
  simp [decode, decodeHost]

@[simp] theorem decode_setOutputRangeWord (a : BitVec 8) (b : BitVec 32) :
    decode (.host (hostWord 0x03 a b)) = .ok (.setOutputRange (decodeTarget a) (b.extractLsb' 0 3)) := by
  simp [decode, decodeHost]

@[simp] theorem decode_minValueWord (a : BitVec 8) (b : BitVec 32) :
    decode (.host (hostWord 0x04 a b)) = .ok .minValue := by
  simp [decode, decodeHost]

@[simp] theorem decode_maxValueWord (a : BitVec 8) (b : BitVec 32) :
    decode (.host (hostWord 0x05 a b)) = .ok .maxValue := by
  simp [decode, decodeHost]

@[simp] theorem decode_channelPoweredUpWord (a : BitVec 8) (b : BitVec 32) :
    decode (.host (hostWord 0x07 a b)) = .ok (.channelPoweredUp a.toNat) := by
  simp [decode, decodeHost]

@[simp] theorem decode_referencePoweredUpWord (a : BitVec 8) (b : BitVec 32) :
    decode (.host (hostWord 0x08 a b)) = .ok (.referencePoweredUp a.toNat) := by
  simp [decode, decodeHost]

@[simp] theorem decode_thermalShutdownWord (a : BitVec 8) (b : BitVec 32) :
    decode (.host (hostWord 0x09 a b)) = .ok (.thermalShutdown a.toNat) := by
  simp [decode, decodeHost]

@[simp] theorem decode_channelOverCurrentWord (a : BitVec 8) (b : BitVec 32) :
    decode (.host (hostWord 0x0A a b)) = .ok (.channelOverCurrent a.toNat) := by
  simp [decode, decodeHost]

@[simp] theorem decode_codecEncodeWord (a : BitVec 8) (b : BitVec 32) :
    decode (.host (hostWord 0x0B a b)) =
      .ok (.codecEncode (a.extractLsb' 7 1) (a.extractLsb' 3 3) (a.extractLsb' 0 3) b) := by
  simp [decode, decodeHost]

@[simp] theorem decode_codecDecodeWord (a : BitVec 8) (b : BitVec 32) :
    decode (.host (hostWord 0x0C a b)) = .ok (.codecDecode b) := by
  simp [decode, decodeHost]

/-- An OP is illegal exactly at 0x00 and from 0x0D on (spec/30_encoding.md R75). -/
theorem legalOp_eq_false_iff (op : BitVec 8) : legalOp op = false ↔ op.toNat = 0 ∨ 13 ≤ op.toNat := by
  rw [legalOp, decide_eq_false_iff_not]
  omega

/-- A host word spells ILLEGAL_OPERATION exactly when its OP is no operation's (spec/30_encoding.md R75). -/
theorem decodeHost_eq_illegalOperation_iff (w : HostWord) (op : BitVec 8) :
    decodeHost w = .illegalOperation op ↔ hostOp w = op ∧ legalOp (hostOp w) = false := by
  rw [legalOp_eq_false_iff]
  unfold decodeHost
  split
  case h_13 =>
    rw [Instr.illegalOperation.injEq, iff_self_and]
    intro _
    simp only [imp_false] at *
    omega
  all_goals
    rename_i hop
    simp [hop]

/-! ### Fields and the bits they hold -/

/-- A field is the same when its bits are. -/
theorem extractLsb'_congr {n start len : Nat} {x y : BitVec n}
    (h : ∀ i, start ≤ i → i < start + len → x.getLsbD i = y.getLsbD i) :
    x.extractLsb' start len = y.extractLsb' start len := by
  apply BitVec.eq_of_getLsbD_eq
  intro i hi
  simp only [BitVec.getLsbD_extractLsb', h (start + i) (by omega) (by omega)]

/-- The word that DECODE reads back holds only the low `DATAGRAM_BYTES` bytes of field B
(spec/40_codec.md R85). -/
theorem fromBytes_receivedBytes_congr {db : DatagramBytes} {b b' : Word}
    (h : ∀ i, i < 8 * db.toNat → b.getLsbD i = b'.getLsbD i) :
    fromBytes (receivedBytes db b) = fromBytes (receivedBytes db b') := by
  apply BitVec.eq_of_toNat_eq
  rw [receivedBytes, receivedBytes, toNat_fromBytes_toBytes, toNat_fromBytes_toBytes]
  apply Nat.eq_of_testBit_eq
  intro i
  rw [Nat.testBit_mod_two_pow, Nat.testBit_mod_two_pow]
  by_cases hi : i < 8 * db.toNat
  · exact congrArg _ (h i hi)
  · simp [hi]

namespace Machine

/-- Settles O5: the words decode by the equations above, whose right sides read the assigned bits alone, and DECODE
reads its field through `fromBytes`. -/
theorem unassignedHostBitsAreIgnored : Obligations.UnassignedHostBitsAreIgnored := by
  refine ⟨?noOperand, ?configure, ?range, ?encode, ?decodeA, ?decodeB, ?index⟩
  case noOperand =>
    rintro op a a' b b' (rfl | rfl | rfl)
    · rw [decode_channelCountWord, decode_channelCountWord]
    · rw [decode_minValueWord, decode_minValueWord]
    · rw [decode_maxValueWord, decode_maxValueWord]
  case configure =>
    intro a b b' h
    rw [decode_configureWord, decode_configureWord, h]
  case range =>
    intro a b b' h
    rw [decode_setOutputRangeWord, decode_setOutputRangeWord, h]
  case encode =>
    intro a a' b h
    have hdir : a.extractLsb' 7 1 = a'.extractLsb' 7 1 := extractLsb'_congr fun i _ _ => h i (by omega)
    have hreg : a.extractLsb' 3 3 = a'.extractLsb' 3 3 := extractLsb'_congr fun i _ _ => h i (by omega)
    have haddr : a.extractLsb' 0 3 = a'.extractLsb' 0 3 := extractLsb'_congr fun i _ _ => h i (by omega)
    rw [decode_codecEncodeWord, decode_codecEncodeWord, hdir, hreg, haddr]
  case decodeA =>
    intro a a' b
    rw [decode_codecDecodeWord, decode_codecDecodeWord]
  case decodeB =>
    intro b b' s h
    change execCodecDecode b s = execCodecDecode b' s
    rw [execCodecDecode, execCodecDecode, fromBytes_receivedBytes_congr h]
  case index =>
    rintro op a b b' (rfl | rfl | rfl | rfl)
    · rw [decode_channelPoweredUpWord, decode_channelPoweredUpWord]
    · rw [decode_referencePoweredUpWord, decode_referencePoweredUpWord]
    · rw [decode_thermalShutdownWord, decode_thermalShutdownWord]
    · rw [decode_channelOverCurrentWord, decode_channelOverCurrentWord]

/-- What the operation of an illegal OP does to a block without a fault (spec/60_exceptions.md R125, R126). -/
theorem exec_illegalOperation {s : State} (op : BitVec 8) (h : s.faultCode = .none) :
    exec (.illegalOperation op) s = .next (s.faulted .illegalOperation) :=
  whenRunning_running h

/-- Settles O6: the decoder by `decodeHost_eq_illegalOperation_iff`, the effect by `exec_illegalOperation`. -/
theorem illegalOpcodesFaultAndDoNothingElse : Obligations.IllegalOpcodesFaultAndDoNothingElse := by
  refine ⟨?illegal, ?legal, fun op s h => exec_illegalOperation op h⟩
  case illegal =>
    intro w h
    have hop : legalOp (hostOp w) = false := (legalOp_eq_false_iff _).2 h
    exact ⟨hostOp w, congrArg Except.ok ((decodeHost_eq_illegalOperation_iff w _).2 ⟨rfl, hop⟩)⟩
  case legal =>
    intro w h op hdec
    have hill := ((decodeHost_eq_illegalOperation_iff w op).1 (Except.ok.inj hdec)).2
    have hop : (hostOp w).toNat = 0 ∨ 13 ≤ (hostOp w).toNat := (legalOp_eq_false_iff _).1 hill
    change 1 ≤ (hostOp w).toNat ∧ (hostOp w).toNat ≤ 12 at h
    omega

/-! ### What a step puts on the wire -/

/-- From `s` to `t` the trace only grows, and every frame of what is new brings a word to chips that are there, in one
of the two forms of spec/41_addressing_and_transactions.md R105. -/
def AddsOnlyFrames (s t : State) : Prop :=
  ∃ new, t.trace = s.trace ++ new ∧
    ∀ f ∈ txFrames new, ∃ sel w, t.hasSel sel ∧ SentTo sel w ∧ f = t.frameToSel sel w

theorem addsOnlyFrames_of_trace_eq {s t : State} (h : t.trace = s.trace) : AddsOnlyFrames s t :=
  ⟨[], by rw [h, List.append_nil], nofun⟩

/-- The events by which CONFIGURE sets up the pins (spec/42_configuration.md R106). -/
theorem setUpPins_trace (s : State) :
    s.setUpPins.trace = s.trace ++ [.pinCfg .cs, .pinWrite .cs .high, .pinCfg .ldac, .pinWrite .ldac .high,
      .pinCfg .clr, .pinWrite .clr .high] := by
  simp [State.setUpPins, State.setUpPin, State.writePin]

/-- What an operation puts out before its register writes holds no frame. -/
theorem Prepared.trace_eq {i : Instr} {s s0 : State} (h : Prepared s i s0) :
    ∃ pins, s0.trace = s.trace ++ pins ∧ ∀ es, txFrames (pins ++ es) = txFrames es := by
  cases h with
  | same => exact ⟨[], (List.append_nil _).symm, fun _ => rfl⟩
  | configure n res r _ => exact ⟨_, setUpPins_trace (s.configured n r), fun _ => rfl⟩
  | range => exact ⟨[], (List.append_nil _).symm, fun _ => rfl⟩

theorem Completes.addsOnlyFrames {i : Instr} {s t : State} (h : Completes i s t) : AddsOnlyFrames s t := by
  obtain ⟨s0, ws, r, hprep, hws, -, rfl⟩ := h
  obtain ⟨pins, hpins, hframes⟩ := hprep.trace_eq
  obtain ⟨new, hafter, -, htx, -⟩ := afterWrites_spec ws s0
  rw [hafter]
  refine ⟨pins ++ new, by simp only [hpins, List.append_assoc], fun f hf => ?_⟩
  rw [hframes, htx] at hf
  obtain ⟨⟨sel, w⟩, hp, rfl⟩ := List.mem_map.1 hf
  obtain ⟨hsel, hsent⟩ := hws _ hp
  exact ⟨sel, w, hsel, hsent, rfl⟩

theorem exec_addsOnlyFrames {i : Instr} {s t : State} (h : exec i s = .next t) : AddsOnlyFrames s t := by
  obtain ⟨-, ⟨code, -, rfl⟩ | hdone⟩ := exec_cases h
  · exact addsOnlyFrames_of_trace_eq rfl
  · exact hdone.addsOnlyFrames

theorem step_addsOnlyFrames {s t : State} (h : step s = .next t) : AddsOnlyFrames s t := by
  obtain ⟨-, rfl⟩ | ⟨-, -, rfl⟩ | ⟨i, p, rest, -, -, -, hexec⟩ := step_cases h
  · exact addsOnlyFrames_of_trace_eq rfl
  · exact addsOnlyFrames_of_trace_eq rfl
  · exact exec_addsOnlyFrames (s := s.accept p rest) hexec

/-- Settles O36: each frame a step adds is `frameToSel` of a word sent in one of the two forms, and such a word is one
of the table's. -/
theorem theWireCarriesOnlyTheSixDatagrams : Obligations.TheWireCarriesOnlyTheSixDatagrams := by
  intro s t h
  obtain ⟨new, htrace, hframes⟩ := step_addsOnlyFrames h
  refine ⟨new, htrace, fun f hf => ?_⟩
  obtain ⟨sel, w, -, hsent, rfl⟩ := hframes f hf
  exact ⟨frameOk_frameToSel t sel hsent.sentWord, length_frameToSel t sel w⟩

end Machine

end Sys2Proof
end

section
/-! The family `40_codec.md`: the codec's round trip (spec/40_codec.md R86) and the two operations ENCODE (R82) and
DECODE (R85). A datagram's fields stand below bit 24, so the bytes of a word carry them at 3 and at 4 bytes alike. -/

namespace Sys2Proof

/-! ### The bytes of a word -/

theorem DatagramBytes.three_le_toNat (db : DatagramBytes) : 3 ≤ db.toNat := by
  cases db <;> decide

/-- Nothing of a word below PAD is lost on the wire (spec/30_encoding.md R52, spec/40_codec.md R81, R84). -/
theorem fromBytes_toBytes_of_lt (db : DatagramBytes) {w : Word} (h : w.toNat < 2 ^ 24) :
    fromBytes (toBytes db w) = w := by
  apply BitVec.eq_of_toNat_eq
  have hle : 2 ^ 24 ≤ 2 ^ (8 * db.toNat) := Nat.pow_le_pow_right (by decide) (by have := db.three_le_toNat; omega)
  rw [toNat_fromBytes_toBytes, Nat.mod_eq_of_lt (h.trans_le hle)]

theorem toNat_pack_lt (dir reg addr payload : Nat) : (pack dir reg addr payload).toNat < 2 ^ 24 := by
  rw [toNat_pack]
  omega

@[simp] theorem fromBytes_toBytes_pack (db : DatagramBytes) (dir reg addr payload : Nat) :
    fromBytes (toBytes db (pack dir reg addr payload)) = pack dir reg addr payload :=
  fromBytes_toBytes_of_lt db (toNat_pack_lt ..)

/-! ### The fields of a word -/

/-- The fields are read from the bits below PAD (spec/40_codec.md R83). -/
theorem unpack_congr {w w' : Word} (h : ∀ i, i < 24 → w.getLsbD i = w'.getLsbD i) : unpack w = unpack w' := by
  rw [unpack, unpack, Datagram.mk.injEq]
  exact ⟨extractLsb'_congr fun i _ _ => h i (by omega), extractLsb'_congr fun i _ _ => h i (by omega),
    extractLsb'_congr fun i _ _ => h i (by omega), extractLsb'_congr fun i _ _ => h i (by omega)⟩

/-- Any word's fields come through the bytes, PAD's byte sent or not. -/
@[simp] theorem unpack_fromBytes_toBytes (db : DatagramBytes) (w : Word) :
    unpack (fromBytes (toBytes db w)) = unpack w := by
  apply unpack_congr
  intro i hi
  have hi' : i < 8 * db.toNat := by have := db.three_le_toNat; omega
  simp [BitVec.getLsbD, toNat_fromBytes_toBytes, Nat.testBit_mod_two_pow, hi']

/-- The packed word of fields in their widths, as the number of spec/40_codec.md R80. -/
theorem pack_eq_ofNat (dir : BitVec 1) (reg addr : BitVec 3) (payload : Nat) :
    pack dir.toNat reg.toNat addr.toNat payload = BitVec.ofNat 32
      (dir.toNat * 2 ^ 23 + reg.toNat * 2 ^ 19 + addr.toNat * 2 ^ 16 + payload % 2 ^ 16) := by
  apply BitVec.eq_of_toNat_eq
  rw [toNat_pack, BitVec.toNat_ofNat]
  omega

/-- `unpack` reads each field that `pack` wrote (spec/40_codec.md R80, R83). -/
@[simp] theorem unpack_pack (dir : BitVec 1) (reg addr : BitVec 3) (payload : BitVec 16) :
    unpack (pack dir.toNat reg.toNat addr.toNat payload.toNat) = ⟨dir, reg, addr, payload⟩ := by
  have hpack := toNat_pack dir.toNat reg.toNat addr.toNat payload.toNat
  rw [unpack, Datagram.mk.injEq]
  refine ⟨?dirField, ?regField, ?addrField, ?payloadField⟩
  all_goals
    apply BitVec.eq_of_toNat_eq
    rw [BitVec.extractLsb'_toNat, Nat.shiftRight_eq_div_pow]
    omega

/-- PAD and RSV as the two gaps of one mask: bit 23 stands alone above the 22 bits below RSV. -/
theorem and_fieldsMask (x : Nat) : x &&& 0x00BFFFFF = x / 2 ^ 23 % 2 * 2 ^ 23 + x % 2 ^ 22 := by
  have hmask : (0x00BFFFFF : Nat) = (2 ^ 1 - 1) <<< 23 ||| (2 ^ 22 - 1) := by decide
  have hlow : x % 2 ^ 22 < 2 ^ 23 := by omega
  rw [hmask, Nat.and_or_distrib_left, and_shifted_mask, Nat.and_two_pow_sub_one_eq_mod,
    Nat.and_two_pow_sub_one_eq_mod, Nat.shiftRight_eq_div_pow, Nat.shiftLeft_eq, Nat.mul_comm,
    Nat.two_pow_add_eq_or_of_lt hlow]

namespace Machine

/-- Packing the fields of a word again clears its PAD and RSV (spec/30_encoding.md R53, R79). -/
theorem repack_unpack (w : Word) : repack (unpack w) = w &&& 0x00BFFFFF#32 := by
  apply BitVec.eq_of_toNat_eq
  have hmask : (w &&& 0x00BFFFFF#32).toNat = w.toNat &&& 0x00BFFFFF := BitVec.toNat_and ..
  rw [hmask, and_fieldsMask, repack, toNat_pack]
  simp only [unpack, BitVec.extractLsb'_toNat, Nat.shiftRight_eq_div_pow]
  omega

/-! ### The two operations -/

theorem exec_codecEncode_stuck {s : State} (dir : BitVec 1) (reg addr : BitVec 3) (payload : BitVec 32)
    (h : s.faultCode ≠ .none) : exec (.codecEncode dir reg addr payload) s = .fault .stuck :=
  whenRunning_stuck h

/-- A block without a fault answers the packed word itself: its bytes hold all of it. -/
theorem exec_codecEncode {s : State} (dir : BitVec 1) (reg addr : BitVec 3) (payload : BitVec 32)
    (h : s.faultCode = .none) : exec (.codecEncode dir reg addr payload) s =
      .next (s.answer .bytes (pack dir.toNat reg.toNat addr.toNat payload.toNat)) := by
  change execCodecEncode dir reg addr payload s = _
  rw [execCodecEncode, whenRunning_running h, wireBits, fromBytes_toBytes_pack]

theorem exec_codecDecode_stuck {s : State} (received : BitVec 32) (h : s.faultCode ≠ .none) :
    exec (.codecDecode received) s = .fault .stuck :=
  whenRunning_stuck h

/-- A block without a fault answers the fields of field B, whichever bytes of it were received. -/
theorem exec_codecDecode {s : State} (received : BitVec 32) (h : s.faultCode = .none) :
    exec (.codecDecode received) s = .next (s.answer .fields (repack (unpack received))) := by
  change execCodecDecode received s = _
  rw [execCodecDecode, whenRunning_running h, receivedBytes, unpack_fromBytes_toBytes]

/-! ### The statements -/

/-- Settles O7: the bytes carry every field of any word, and `unpack` undoes `pack`. -/
theorem unpackingPackedBytesGivesBackEveryField : Obligations.UnpackingPackedBytesGivesBackEveryField := by
  intro db dir reg addr payload
  rw [unpack_fromBytes_toBytes, unpack_pack]

/-- Settles O8: the answer is the packed word, which is the number of R80. -/
theorem encodeAnswersThePackedBytes : Obligations.EncodeAnswersThePackedBytes := by
  refine fun dir reg addr payload s => ⟨exec_codecEncode_stuck dir reg addr payload, fun h => ?running⟩
  rw [exec_codecEncode dir reg addr payload h, pack_eq_ofNat, State.answer]

/-- Settles O9: the answer is the word packed again from its fields, which is the word under one mask. -/
theorem decodeAnswersTheFieldsWithoutPadding : Obligations.DecodeAnswersTheFieldsWithoutPadding := by
  refine fun received s => ⟨exec_codecDecode_stuck received, fun h => ?running⟩
  rw [exec_codecDecode received h, repack_unpack, State.answer]

end Machine

end Sys2Proof
end

section
/-! The family `41_addressing_and_transactions.md`: what a target resolves to (R90 to R92), and the slots of a frame
(R95, R96). -/

namespace Sys2Proof

/-- Of lists of one length put one after the other, the list at position `j` is the `j`-th piece of that length. -/
theorem take_drop_flatMap {α β : Type} {f : α → List β} {len : Nat} (hlen : ∀ a, (f a).length = len) {l : List α}
    {j : Nat} (hj : j < l.length) : ((l.flatMap f).drop (j * len)).take len = f l[j] := by
  induction l generalizing j with
  | nil => exact absurd hj (Nat.not_lt_zero j)
  | cons a rest ih =>
    rw [List.flatMap_cons]
    cases j with
    | zero =>
      rw [Nat.zero_mul, List.drop_zero, List.take_left' (hlen a)]
      rfl
    | succ k =>
      have hskip : (k + 1) * len = (f a).length + k * len := by rw [hlen, Nat.succ_mul, Nat.add_comm]
      rw [hskip, List.drop_length_add_append, ih (Nat.lt_of_succ_lt_succ hj)]
      rfl

namespace Machine

/-! ### Targets -/

/-- Field A's code for All is its only value that names no channel (spec/30_encoding.md R72). -/
theorem decodeTarget_eq (a : BitVec 8) : decodeTarget a = if a.toNat = 255 then .all else .channel a.toNat := by
  have hall : a = 0xFF#8 ↔ a.toNat = 255 := BitVec.toNat_inj.symm
  simp only [decodeTarget, hall]

/-- The address of a chip's own channel spells its offset (spec/41_addressing_and_transactions.md R92). -/
theorem code_addrOf {offset : Nat} (h : offset < 4) : (addrOf offset).code = offset := by
  interval_cases offset <;> rfl

/-- Settles O18: `offsetOf` is below 4, where `addrOf` spells it. -/
theorem targetsResolveToChipAndAddress : Obligations.TargetsResolveToChipAndAddress :=
  ⟨decodeTarget_eq, fun c => ⟨rfl, code_addrOf (Nat.mod_lt c (by decide))⟩, rfl, rfl⟩

/-! ### Slots -/

/-- A slot's chip gets the datagram when the selector names it, and DG_NOP otherwise
(spec/41_addressing_and_transactions.md R95, R96). -/
theorem slot_buildFrame (s : State) (sel : ChipSel) (w : Word) {j : Nat} (hj : j < s.chips) :
    ((s.buildFrame sel w).drop (j * s.datagramBytes.toNat)).take s.datagramBytes.toNat =
      toBytes s.datagramBytes (if sel.names (s.chips - 1 - j) then w else nopWord) := by
  have hlen : j < (List.range s.chips).length := by rwa [List.length_range]
  rw [State.buildFrame, take_drop_flatMap (fun _ => length_toBytes ..) hlen, List.getElem_range]

/-- Settles O19: the length is that of the frame in the terms of the claims, and each slot is `slot_buildFrame`'s. -/
theorem framesHoldOneSlotPerChipFurthestFirst : Obligations.FramesHoldOneSlotPerChipFurthestFirst := by
  refine fun s sel w => ⟨?length, fun j hj => ?slot⟩
  case length => rw [buildFrame_eq, length_frameToSel]
  case slot => simp only [slot_buildFrame s sel w hj, ChipSel.names, decide_eq_true_eq, nopWord_eq]

end Machine

end Sys2Proof
end

section
/-! The family `42_configuration.md`: CONFIGURE (R106) with the clamp of its count (R107), and CHANNEL_COUNT (R109). -/

namespace Sys2Proof.Machine

/-! ### The check for a configuration -/

theorem whenConfigured_stuck {s : State} {k : Outcome} (hf : s.faultCode ≠ .none) :
    whenConfigured s k = .fault .stuck :=
  whenRunning_stuck hf

theorem whenConfigured_unconfigured {s : State} {k : Outcome} (hf : s.faultCode = .none) (hv : s.cfgValid = false) :
    whenConfigured s k = .next (s.faulted .notConfigured) := by
  rw [whenConfigured, whenRunning_running hf, hv, if_neg Bool.false_ne_true, raise_eq_faulted]

theorem whenConfigured_configured {s : State} {k : Outcome} (hf : s.faultCode = .none) (hv : s.cfgValid = true) :
    whenConfigured s k = k := by
  rw [whenConfigured, whenRunning_running hf, if_pos hv]

/-! ### The operands of CONFIGURE -/

theorem clampChipCount_of_legal {n : Nat} (hlo : 1 ≤ n) (hhi : n ≤ 4) : clampChipCount n = BitVec.ofNat 3 n :=
  if_pos ⟨hlo, hhi⟩

/-- Out of range on either side gives the minimum (spec/42_configuration.md R107). -/
theorem clampChipCount_of_illegal {n : Nat} (h : n = 0 ∨ 5 ≤ n) : clampChipCount n = 1#3 := by
  refine if_neg fun hlegal => ?_
  obtain ⟨hlo, hhi⟩ : 1 ≤ n ∧ n ≤ 4 := hlegal
  omega

/-- The clamp as the pairs of a count asked for and the count recorded. -/
theorem clampChipCount_of_mem {n m : Nat}
    (h : (n, m) ∈ [(1, 1), (2, 2), (3, 3), (4, 4)] ∨ ((n = 0 ∨ 5 ≤ n) ∧ m = 1)) :
    clampChipCount n = BitVec.ofNat 3 m := by
  obtain hmem | ⟨hout, rfl⟩ := h
  · obtain ⟨rfl, hlo, hhi⟩ : n = m ∧ 1 ≤ n ∧ n ≤ 4 := by
      simp only [List.mem_cons, Prod.mk.injEq, List.not_mem_nil, or_false] at hmem
      omega
    exact clampChipCount_of_legal hlo hhi
  · exact clampChipCount_of_illegal hout

/-- Code 3 is the one invalid resolution operand (spec/30_encoding.md R73). -/
theorem Resolution.ofCode_three : Resolution.ofCode 3#2 = none := rfl

theorem Resolution.ofCode_of_mem {res : BitVec 2} {r : Resolution}
    (h : (res, r) ∈ [(0#2, Resolution.r12), (1#2, Resolution.r14), (2#2, Resolution.r16)]) :
    Resolution.ofCode res = some r := by
  simp only [List.mem_cons, Prod.mk.injEq, List.not_mem_nil, or_false] at h
  obtain ⟨rfl, rfl⟩ | ⟨rfl, rfl⟩ | ⟨rfl, rfl⟩ := h <;> rfl

/-! ### What CONFIGURE leaves -/

/-- Setting up the pins changes their three levels and the trace, and no other field (spec/42_configuration.md R106). -/
theorem setUpPins_eq (s : State) :
    s.setUpPins = { s with
      csLvl := .high
      ldacLvl := .high
      clrLvl := .high
      trace := s.trace ++ [.pinCfg .cs, .pinWrite .cs .high, .pinCfg .ldac, .pinWrite .ldac .high,
        .pinCfg .clr, .pinWrite .clr .high] } := by
  simp [State.setUpPins, State.setUpPin, State.writePin, State.emit, Level.recorded]

theorem exec_configure_stuck {s : State} (n : Nat) (res : BitVec 2) (hf : s.faultCode ≠ .none) :
    exec (.configure n res) s = .fault .stuck :=
  whenRunning_stuck hf

/-- A second CONFIGURE faults before its operands are looked at (spec/60_exceptions.md R132). -/
theorem exec_configure_alreadyConfigured {s : State} (n : Nat) (res : BitVec 2) (hf : s.faultCode = .none)
    (hv : s.cfgValid = true) : exec (.configure n res) s = .next (s.faulted .alreadyConfigured) := by
  change execConfigure n res s = _
  rw [execConfigure, whenRunning_running hf, if_pos hv, raise_eq_faulted]

theorem exec_configure_invalidResolution {s : State} {res : BitVec 2} (n : Nat) (hf : s.faultCode = .none)
    (hv : s.cfgValid = false) (hres : Resolution.ofCode res = none) :
    exec (.configure n res) s = .next (s.faulted .invalidResolution) := by
  change execConfigure n res s = _
  rw [execConfigure, whenRunning_running hf, hv, if_neg Bool.false_ne_true]
  simp only [hres, raise_eq_faulted]

/-- CONFIGURE completes with one register write, the power-up, from the state with the pins set up. -/
theorem exec_configure {s : State} {res : BitVec 2} {r : Resolution} (n : Nat) (hf : s.faultCode = .none)
    (hv : s.cfgValid = false) (hres : Resolution.ofCode res = some r) :
    exec (.configure n res) s = .next (((s.configured n r).setUpPins.afterTransaction
      ((s.configured n r).setUpPins.frameToAll 0x10001F#32)).answer .none 0) := by
  change execConfigure n res s = _
  rw [execConfigure, whenRunning_running hf, hv, if_neg Bool.false_ne_true]
  simp only [hres, writeReg_eq, powerUpWord_eq]
  rfl

/-! ### The statements -/

/-- Settles O10: the stop and the two faults by CONFIGURE's checks in their order; its effect by `exec_configure`, where
the recorded state is the configured one with its pins set up. -/
theorem configureRecordsSetsUpPinsAndPowersUp : Obligations.ConfigureRecordsSetsUpPinsAndPowersUp := by
  refine fun n res s => ⟨exec_configure_stuck n res, exec_configure_alreadyConfigured n res, ?invalid, ?completes⟩
  case invalid =>
    rintro hf hv rfl
    exact exec_configure_invalidResolution n hf hv Resolution.ofCode_three
  case completes =>
    intro r m c hres hcount hc hf hv
    have hrecorded : (s.configured n r).setUpPins = c := by
      rw [setUpPins_eq, State.configured, clampChipCount_of_mem hcount, hc]
    rw [exec_configure n hf hv (Resolution.ofCode_of_mem hres), hrecorded, State.answer]

/-- Settles O11: the three ways of `whenConfigured`, with four channels to a chip. -/
theorem channelCountAnswersFourPerChip : Obligations.ChannelCountAnswersFourPerChip :=
  fun _ => ⟨whenConfigured_stuck, whenConfigured_unconfigured, whenConfigured_configured⟩

end Sys2Proof.Machine
end

section
/-! The family `43_output.md`: SET_OUTPUT_RANGE (R110, R111), the bounds of the value range (R113, R114) and
WRITE_VALUE (R115, R116). -/

namespace Sys2Proof.Machine

/-! ### The checks of an operation that names a target -/

theorem checkTarget_of_not_hasTarget {t : Target} {s : State} (h : ¬ s.hasTarget t) :
    checkTarget t s = .channelOutOfRange := by
  obtain ⟨-, hthere⟩ | ⟨hcheck, -⟩ := checkTarget_cases t s
  · exact absurd hthere h
  · exact hcheck

theorem targetChecks_absent {t : Target} {s : State} {k : Outcome} (hf : s.faultCode = .none) (hv : s.cfgValid = true)
    (ht : ¬ s.hasTarget t) :
    whenConfigured s (unlessFault (checkTarget t s) s k) = .next (s.faulted .channelOutOfRange) := by
  rw [whenConfigured_configured hf hv, checkTarget_of_not_hasTarget ht, unlessFault, if_neg (by decide),
    raise_eq_faulted]

theorem targetChecks_present {t : Target} {s : State} {k : Outcome} (hf : s.faultCode = .none) (hv : s.cfgValid = true)
    (ht : s.hasTarget t) : whenConfigured s (unlessFault (checkTarget t s) s k) = k := by
  rw [whenConfigured_configured hf hv, checkTarget_of_hasTarget ht, unlessFault_none]

/-! ### A register write to a target -/

/-- The address a target resolves to spells the target's ADDR code (spec/41_addressing_and_transactions.md R91, R92). -/
theorem code_resolve (t : Target) : (resolve t).2.code = targetAddr t := by
  cases t with
  | channel c => exact code_addrOf (Nat.mod_lt c (by decide))
  | all => rfl

theorem frameToSel_resolve (s : State) (t : Target) (w : Word) :
    s.frameToSel (resolve t).1 w = s.frameToTarget t w := by
  cases t <;> rfl

theorem writeReg_resolve (s : State) (t : Target) (w : Word) :
    s.writeReg (resolve t).1 w = s.afterTransaction (s.frameToTarget t w) := by
  rw [writeReg_eq, frameToSel_resolve]

/-- A frame is made of the chip count and the datagram width, which a transaction leaves. -/
@[simp] theorem frameToTarget_afterTransaction (s : State) (tx : List Byte) (t : Target) (w : Word) :
    (s.afterTransaction tx).frameToTarget t w = s.frameToTarget t w := rfl

/-! ### The operands and bounds as the tables of the spec -/

/-- The table of R110: the polarity and the range code of each operand, 6 and 7 acting as 0. -/
theorem rangeTable_getElem? (range : BitVec 3) :
    [(Polarity.unipolar, 0), (.unipolar, 1), (.unipolar, 2), (.bipolar, 3), (.bipolar, 4), (.bipolar, 5),
      (.unipolar, 0), (.unipolar, 0)][range.toNat]? = some ((rangeMap range).1, (rangeMap range).2.code) := by
  revert range
  decide

theorem minBound_of_mem {r : Resolution} {p : Polarity} {v : Int}
    (h : (r, p, v) ∈ [(Resolution.r12, Polarity.unipolar, (0 : Int)), (.r14, .unipolar, 0), (.r16, .unipolar, 0),
      (.r12, .bipolar, -2048), (.r14, .bipolar, -8192), (.r16, .bipolar, -32768)]) : minBound r p = v := by
  simp only [List.mem_cons, Prod.mk.injEq, List.not_mem_nil, or_false] at h
  obtain ⟨rfl, rfl, rfl⟩ | ⟨rfl, rfl, rfl⟩ | ⟨rfl, rfl, rfl⟩ | ⟨rfl, rfl, rfl⟩ | ⟨rfl, rfl, rfl⟩ | ⟨rfl, rfl, rfl⟩ := h
    <;> rfl

/-- 65536 is the one entry that no value of the native width reaches (spec/90_conflicts.md C4). -/
theorem maxBound_of_mem {r : Resolution} {p : Polarity} {v : Int}
    (h : (r, p, v) ∈ [(Resolution.r12, Polarity.unipolar, (4095 : Int)), (.r14, .unipolar, 16383),
      (.r16, .unipolar, 65536), (.r12, .bipolar, 2047), (.r14, .bipolar, 8191), (.r16, .bipolar, 32767)]) :
    maxBound r p = v := by
  simp only [List.mem_cons, Prod.mk.injEq, List.not_mem_nil, or_false] at h
  obtain ⟨rfl, rfl, rfl⟩ | ⟨rfl, rfl, rfl⟩ | ⟨rfl, rfl, rfl⟩ | ⟨rfl, rfl, rfl⟩ | ⟨rfl, rfl, rfl⟩ | ⟨rfl, rfl, rfl⟩ := h
    <;> rfl

theorem payloadShift_of_mem {r : Resolution} {shift : Nat}
    (h : (r, shift) ∈ [(Resolution.r12, 4), (.r14, 2), (.r16, 0)]) : payloadShift r = shift := by
  simp only [List.mem_cons, Prod.mk.injEq, List.not_mem_nil, or_false] at h
  obtain ⟨rfl, rfl⟩ | ⟨rfl, rfl⟩ | ⟨rfl, rfl⟩ := h <;> rfl

/-- The payload of a value is the exact shifted integer modulo 2^16, negative values included (spec/43_output.md R115). -/
theorem toNat_scale (r : Resolution) (value : BitVec 32) :
    (scale r value).toNat = (value.toInt * 2 ^ payloadShift r % 65536).toNat :=
  BitVec.toNat_ofInt ..

/-! ### What the operations leave -/

theorem exec_setOutputRange {t : Target} {s : State} (range : BitVec 3) (hf : s.faultCode = .none)
    (hv : s.cfgValid = true) (ht : s.hasTarget t) :
    exec (.setOutputRange t range) s = .next { s.afterTransaction (s.frameToTarget t
        (BitVec.ofNat 32 (0x080000 + targetAddr t * 0x10000 + (rangeMap range).2.code))) with
      polarity := (rangeMap range).1, result := ⟨.none, 0⟩ } := by
  change execSetOutputRange t range s = _
  rw [execSetOutputRange, targetChecks_present hf hv ht, writeReg_resolve, rangeWriteWord_eq, code_resolve]
  rfl

theorem exec_minValue {s : State} (hf : s.faultCode = .none) (hv : s.cfgValid = true) :
    exec .minValue s = .next (s.answer .int (BitVec.ofInt 32 (minBound s.resolution s.polarity))) :=
  whenConfigured_configured hf hv

theorem exec_maxValue {s : State} (hf : s.faultCode = .none) (hv : s.cfgValid = true) :
    exec .maxValue s = .next (s.answer .int (BitVec.ofInt 32 (maxBound s.resolution s.polarity))) :=
  whenConfigured_configured hf hv

/-- The load's frame is for the configuration the first transaction left, which is the one it found. -/
theorem exec_writeValue {t : Target} {s : State} (value : BitVec 32) (hf : s.faultCode = .none)
    (hv : s.cfgValid = true) (ht : s.hasTarget t) :
    exec (.writeValue t value) s = .next (((s.afterTransaction (s.frameToTarget t
        (BitVec.ofNat 32 (targetAddr t * 0x10000 + (scale s.resolution value).toNat)))).afterTransaction
      (s.frameToTarget t 0x1D0000#32)).answer .none 0) := by
  change execWriteValue t value s = _
  rw [execWriteValue, targetChecks_present hf hv ht, writeReg_resolve, writeReg_resolve,
    frameToTarget_afterTransaction, dacWriteWord_eq, code_resolve, loadWord_eq]

/-! ### The statements -/

/-- Settles O12: the checks in their order, and the polarity and code that `exec_setOutputRange` leaves are the entry of
the table of R110. -/
theorem setOutputRangeRecordsPolarityAndWritesTheRange :
    Obligations.SetOutputRangeRecordsPolarityAndWritesTheRange := by
  refine fun t range s => ⟨whenConfigured_stuck, whenConfigured_unconfigured, targetChecks_absent, ?completes⟩
  intro p code hentry hf hv ht
  obtain ⟨rfl, rfl⟩ : (rangeMap range).1 = p ∧ (rangeMap range).2.code = code := by
    rwa [rangeTable_getElem?, Option.some_inj, Prod.mk.injEq] at hentry
  exact exec_setOutputRange range hf hv ht

/-- Settles O15: the checks in their order, and the payload that `exec_writeValue` sends is the shifted value modulo
2^16. -/
theorem writeValueSendsTheScaledValueThenTheLoad : Obligations.WriteValueSendsTheScaledValueThenTheLoad := by
  refine fun t value s => ⟨whenConfigured_stuck, whenConfigured_unconfigured, targetChecks_absent, ?completes⟩
  intro shift hshift hf hv ht
  rw [exec_writeValue value hf hv ht, toNat_scale, payloadShift_of_mem hshift, State.answer]

/-- Settles O13: the three ways of `whenConfigured`, with the lowest value by its table. -/
theorem minValueAnswersTheLowestValue : Obligations.MinValueAnswersTheLowestValue := by
  refine fun s => ⟨whenConfigured_stuck, whenConfigured_unconfigured, fun v hentry hf hv => ?completes⟩
  rw [exec_minValue hf hv, minBound_of_mem hentry, State.answer]

/-- Settles O14: the three ways of `whenConfigured`, with the highest value by its table. -/
theorem maxValueAnswersTheHighestValue : Obligations.MaxValueAnswersTheHighestValue := by
  refine fun s => ⟨whenConfigured_stuck, whenConfigured_unconfigured, fun v hentry hf hv => ?completes⟩
  rw [exec_maxValue hf hv, maxBound_of_mem hentry, State.answer]

end Sys2Proof.Machine
end

section
/-! The family `44_status.md`: the four status operations (R119 to R122). Each reads one chip and tests one bit of the
reply (R118); they differ in that bit, and in whether they name a channel or a chip. -/

namespace Sys2Proof.Machine

/-! ### The checks of an operation that names a chip -/

theorem chipChecks_absent {k : Nat} {s : State} {next : Outcome} (hf : s.faultCode = .none) (hv : s.cfgValid = true)
    (hk : s.chips ≤ k) :
    whenConfigured s (unlessFault (checkChip k s) s next) = .next (s.faulted .chipIndexOutOfRange) := by
  rw [whenConfigured_configured hf hv, checkChip, if_pos hk, unlessFault, if_neg (by decide), raise_eq_faulted]

theorem chipChecks_present {k : Nat} {s : State} {next : Outcome} (hf : s.faultCode = .none) (hv : s.cfgValid = true)
    (hk : k < s.chips) : whenConfigured s (unlessFault (checkChip k s) s next) = next := by
  rw [whenConfigured_configured hf hv, checkChip, if_neg (Nat.not_le.mpr hk), unlessFault_none]

/-! ### The status of a channel

A channel is checked as the target that names it: index 255 is a channel here and no broadcast
(spec/44_status.md R119, R122). -/

theorem channelStatus_absent {c bit : Nat} {s : State} (hf : s.faultCode = .none) (hv : s.cfgValid = true)
    (hc : s.chips * 4 ≤ c) :
    whenConfigured s (unlessFault (checkChannel c s) s (.next (s.testStatus (chipOf c) bit))) =
      .next (s.faulted .channelOutOfRange) :=
  targetChecks_absent (t := .channel c) hf hv (Nat.not_lt.mpr hc)

/-- The chip read is the one that carries the channel, which a channel in bounds has
(spec/41_addressing_and_transactions.md R90). -/
theorem channelStatus_present {c bit : Nat} {s : State} (hf : s.faultCode = .none) (hv : s.cfgValid = true)
    (hc : c < s.chips * 4) :
    whenConfigured s (unlessFault (checkChannel c s) s (.next (s.testStatus (chipOf c) bit))) =
      .next (s.afterStatus (c / 4) bit) := by
  have hchip : c / 4 < s.chips := Nat.div_lt_of_lt_mul (by rwa [Nat.mul_comm])
  calc
    _ = .next (s.testStatus (c / 4) bit) := targetChecks_present (t := .channel c) hf hv hc
    _ = .next (s.afterStatus (c / 4) bit) := by rw [testStatus_eq s hchip]

/-! ### The status of a chip -/

theorem chipStatus_present {k bit : Nat} {s : State} (hf : s.faultCode = .none) (hv : s.cfgValid = true)
    (hk : k < s.chips) :
    whenConfigured s (unlessFault (checkChip k s) s (.next (s.testStatus k bit))) = .next (s.afterStatus k bit) := by
  rw [chipChecks_present hf hv hk, testStatus_eq s hk]

/-! ### The statements -/

/-- Settles O20: the checks in their order, and the channel's status at the bit `PU(c % 4)` of R118. -/
theorem channelPoweredUpTestsItsPowerBit : Obligations.ChannelPoweredUpTestsItsPowerBit :=
  fun _ _ => ⟨whenConfigured_stuck, whenConfigured_unconfigured, channelStatus_absent, channelStatus_present⟩

/-- Settles O21: the checks in their order, and the chip's status at the bit `PU_REF` of R118. -/
theorem referencePoweredUpTestsTheReferenceBit : Obligations.ReferencePoweredUpTestsTheReferenceBit :=
  fun _ _ => ⟨whenConfigured_stuck, whenConfigured_unconfigured, chipChecks_absent, chipStatus_present⟩

/-- Settles O22: the checks in their order, and the chip's status at the thermal-shutdown bit of R118. -/
theorem thermalShutdownTestsTheThermalBit : Obligations.ThermalShutdownTestsTheThermalBit :=
  fun _ _ => ⟨whenConfigured_stuck, whenConfigured_unconfigured, chipChecks_absent, chipStatus_present⟩

/-- Settles O23: the checks in their order, and the channel's status at the bit `OC(c % 4)` of R118. -/
theorem channelOverCurrentTestsItsOverCurrentBit : Obligations.ChannelOverCurrentTestsItsOverCurrentBit :=
  fun _ _ => ⟨whenConfigured_stuck, whenConfigured_unconfigured, channelStatus_absent, channelStatus_present⟩

end Sys2Proof.Machine
end

section
/-! The family `60_exceptions.md`: which fault a host command reports (R124, R132) and what a fault writes (R125). A
host command is one check, for the first cause that applies, before a completion that leaves `FAULT` alone. -/

namespace Sys2Proof.Machine

/-! ### What leaves `FAULT` alone -/

@[simp] theorem writeReg_faultCode (s : State) (sel : ChipSel) (w : Word) :
    (s.writeReg sel w).faultCode = s.faultCode := by
  rw [writeReg_eq, State.afterTransaction_faultCode]

@[simp] theorem setUpPins_faultCode (s : State) : s.setUpPins.faultCode = s.faultCode := by
  rw [setUpPins_eq]

/-- The two phases of a read are two register writes, for a chip that is there or not. -/
@[simp] theorem testStatus_faultCode (s : State) (k bit : Nat) : (s.testStatus k bit).faultCode = s.faultCode :=
  calc
    _ = ((s.writeReg (.chip k) powerReadWord).writeReg (.chip k) nopWord).faultCode := rfl
    _ = s.faultCode := by rw [writeReg_faultCode, writeReg_faultCode]

theorem afterWrites_faultCode (s : State) (ws : List (ChipSel × Word)) :
    (s.afterWrites ws).faultCode = s.faultCode := by
  obtain ⟨new, hafter, -⟩ := afterWrites_spec ws s
  rw [hafter]

theorem Prepared.faultCode_eq {i : Instr} {s s0 : State} (h : Prepared s i s0) : s0.faultCode = s.faultCode := by
  cases h with
  | same => rfl
  | configure n res r _ => rw [setUpPins_faultCode, State.configured_faultCode]
  | range => rfl

/-- An operation that completes raises no fault. -/
theorem Completes.faultCode_eq {i : Instr} {s t : State} (h : Completes i s t) : t.faultCode = s.faultCode := by
  obtain ⟨s0, ws, r, hprep, -, -, rfl⟩ := h
  exact (afterWrites_faultCode s0 ws).trans hprep.faultCode_eq

/-! ### The checks as one check -/

theorem exec_stuck {s : State} (i : Instr) (hf : s.faultCode ≠ .none) : exec i s = .fault .stuck := by
  cases i <;> exact whenRunning_stuck hf

theorem unlessFault_of_ne_none {code : FaultCode} (s : State) (k : Outcome) (h : code ≠ .none) :
    unlessFault code s k = .next (s.faulted code) := by
  rw [unlessFault, if_neg h, raise_eq_faulted]

/-- The check for a configuration comes before the bounds check (spec/60_exceptions.md R132). -/
theorem whenConfigured_unlessFault {s : State} (code : FaultCode) (k : Outcome) (hf : s.faultCode = .none) :
    whenConfigured s (unlessFault code s k) = unlessFault (if !s.cfgValid then .notConfigured else code) s k := by
  cases hv : s.cfgValid with
  | false => exact (whenConfigured_unconfigured hf hv).trans (unlessFault_of_ne_none s k (by decide)).symm
  | true => exact whenConfigured_configured hf hv

theorem Resolution.ofCode_eq_none_iff (res : BitVec 2) : Resolution.ofCode res = none ↔ res = 3#2 := by
  revert res
  decide

/-! ### The fault a host command owes -/

/-- A host command is the check for the fault it owes, and then a completion that leaves `FAULT` as it is. -/
def ChecksFaultDue (i : Instr) (s : State) : Prop :=
  ∃ t : State, t.faultCode = s.faultCode ∧ exec i s = unlessFault (faultDue s i) s (.next t)

/-- CONFIGURE looks at its resolution only when the block is not configured yet (spec/60_exceptions.md R132). -/
theorem checksFaultDue_configure {s : State} (n : Nat) (res : BitVec 2) (hf : s.faultCode = .none) :
    ChecksFaultDue (.configure n res) s := by
  cases hv : s.cfgValid with
  | true =>
    have hdue : faultDue s (.configure n res) = .alreadyConfigured := if_pos hv
    refine ⟨s, rfl, ?_⟩
    rw [exec_configure_alreadyConfigured n res hf hv, hdue, unlessFault_of_ne_none s _ (by decide)]
  | false =>
    cases hres : Resolution.ofCode res with
    | none =>
      have hdue : faultDue s (.configure n res) = .invalidResolution := by
        simp [faultDue, hv, (Resolution.ofCode_eq_none_iff res).1 hres]
      refine ⟨s, rfl, ?_⟩
      rw [exec_configure_invalidResolution n hf hv hres, hdue, unlessFault_of_ne_none s _ (by decide)]
    | some r =>
      have hvalid : res ≠ 3#2 := fun h => by simp [(Resolution.ofCode_eq_none_iff res).2 h] at hres
      have hdue : faultDue s (.configure n res) = .none := by simp [faultDue, hv, hvalid]
      refine ⟨_, ?_, by rw [exec_configure n hf hv hres, hdue, unlessFault_none]⟩
      simp

/-- A command that reads the configuration checks for one, and then its operand, if it has one to check. -/
theorem checksFaultDue_of_whenConfigured {i : Instr} {s t : State} (code : FaultCode) (hf : s.faultCode = .none)
    (hexec : exec i s = whenConfigured s (unlessFault code s (.next t)))
    (hdue : faultDue s i = if !s.cfgValid then .notConfigured else code) (ht : t.faultCode = s.faultCode) :
    ChecksFaultDue i s :=
  ⟨t, ht, by rw [hexec, hdue, whenConfigured_unlessFault code _ hf]⟩

/-- Every host command; a broadcast target passes its check, as `faultDue` says (spec/60_exceptions.md R130). -/
theorem exec_checksFaultDue {i : Instr} {s : State} (hi : isHostCommand i = true) (hf : s.faultCode = .none) :
    ChecksFaultDue i s := by
  cases i with
  | configure n res => exact checksFaultDue_configure n res hf
  | illegalOperation op => exact ⟨s, rfl, exec_illegalOperation op hf⟩
  | codecEncode dir reg addr payload =>
    exact ⟨_, State.answer_faultCode .., exec_codecEncode dir reg addr payload hf⟩
  | codecDecode received => exact ⟨_, State.answer_faultCode .., exec_codecDecode received hf⟩
  | channelCount => exact checksFaultDue_of_whenConfigured .none hf rfl rfl (State.answer_faultCode ..)
  | minValue => exact checksFaultDue_of_whenConfigured .none hf rfl rfl (State.answer_faultCode ..)
  | maxValue => exact checksFaultDue_of_whenConfigured .none hf rfl rfl (State.answer_faultCode ..)
  | setOutputRange x range =>
    exact checksFaultDue_of_whenConfigured (checkTarget x s) hf rfl (by cases x <;> rfl) (by simp)
  | writeValue x value =>
    exact checksFaultDue_of_whenConfigured (checkTarget x s) hf rfl (by cases x <;> rfl) (by simp)
  | channelPoweredUp c =>
    exact checksFaultDue_of_whenConfigured (checkChannel c s) hf rfl rfl (testStatus_faultCode ..)
  | channelOverCurrent c =>
    exact checksFaultDue_of_whenConfigured (checkChannel c s) hf rfl rfl (testStatus_faultCode ..)
  | referencePoweredUp k =>
    exact checksFaultDue_of_whenConfigured (checkChip k s) hf rfl rfl (testStatus_faultCode ..)
  | thermalShutdown k =>
    exact checksFaultDue_of_whenConfigured (checkChip k s) hf rfl rfl (testStatus_faultCode ..)
  | dgDacWrite | dgRangeWrite | dgPowerUp | dgNop | dgLoad | dgPowerRead => cases hi

/-! ### The statements -/

/-- Settles O29: a faulted block is stuck by `exec_stuck`; otherwise the one check of `exec_checksFaultDue` raises the
fault due, or lets the command complete. -/
theorem hostFaultsFollowThePriorityOrder : Obligations.HostFaultsFollowThePriorityOrder := by
  refine fun i s hi => ⟨exec_stuck i, ?faults, ?completes⟩
  case faults =>
    intro hf hdue
    obtain ⟨t, -, hexec⟩ := exec_checksFaultDue hi hf
    rw [hexec, unlessFault_of_ne_none s _ hdue]
  case completes =>
    intro hf hdue
    obtain ⟨t, ht, hexec⟩ := exec_checksFaultDue hi hf
    exact ⟨t, by rw [hexec, hdue, unlessFault_none], ht.trans hf⟩

/-- Settles O30: of the ways an operation can answer (`exec_cases`), only a raised fault leaves `FAULT` set, and it
leaves `State.faulted`. -/
theorem aFaultChangesOnlyFaultAndTheResult : Obligations.AFaultChangesOnlyFaultAndTheResult := by
  intro i s t h hfault
  obtain ⟨hf, ⟨code, -, rfl⟩ | hdone⟩ := exec_cases h
  · rfl
  · exact absurd (hdone.faultCode_eq.trans hf) hfault

end Sys2Proof.Machine
end

section
/-! The family `70_reset_and_hazards.md`: R152. The value MAX_VALUE answers at 16 bits unipolar, 65536, is one more than
16 bits hold, so the payload WRITE_VALUE makes of it is 0. -/

namespace Sys2Proof.Machine

/-- The frames a run of register writes adds to the trace are those of the writes, in their order. -/
theorem txFrames_drop_afterWrites (s : State) (ws : List (ChipSel × Word)) :
    txFrames ((s.afterWrites ws).trace.drop s.trace.length) = s.framesOf ws := by
  obtain ⟨new, hafter, -, hframes, -⟩ := afterWrites_spec ws s
  rw [hafter, List.drop_left, hframes]

/-- `trunc_16(65536) = 0` (spec/70_reset_and_hazards.md R152): at 16 bits nothing is shifted (spec/43_output.md R115),
and 65536 is 0 modulo 2^16. -/
theorem toNat_scale_r16_65536 : (scale .r16 65536#32).toNat = 0 := by
  rw [toNat_scale]
  decide

/-- Settles O16: `exec_maxValue` answers 65536 and leaves all else, so `exec_writeValue` applies to the state it leaves,
and the two writes it makes there carry that value's payload, which is 0, and the load. -/
theorem sixteenBitUnipolarMaximumIsSentAsZero : Obligations.SixteenBitUnipolarMaximumIsSentAsZero := by
  intro c s hf hv hres hpol hc
  have hmax : exec .maxValue s = .next (s.answer .int 65536#32) := by
    rw [exec_maxValue hf hv, hres, hpol]
    rfl
  have hpayload : (scale (s.answer .int 65536#32).resolution 65536#32).toNat = 0 := by
    rw [State.answer_resolution, hres, toNat_scale_r16_65536]
  have hwrite := exec_writeValue (t := .channel c) (s := s.answer .int 65536#32) 65536#32 hf hv hc
  rw [hpayload, Nat.add_zero] at hwrite
  exact ⟨_, _, hmax, rfl, hwrite, txFrames_drop_afterWrites (s.answer .int 65536#32)
    [(.chip (c / 4), BitVec.ofNat 32 (c % 4 * 0x10000)), (.chip (c / 4), 0x1D0000#32)]⟩

end Sys2Proof.Machine
end

section
/-! The encoding as a whole (spec/30_encoding.md sections 2 and 3): the decoder undoes the encoder, what it answers is
well formed, and the wire words it knows are those of the table. -/

namespace Sys2Proof

/-! ### The operands of a host word -/

@[simp] theorem decode_writeValueWord (a : BitVec 8) (b : BitVec 32) :
    decode (.host (hostWord 0x06 a b)) = .ok (.writeValue (decodeTarget a) b) := by
  simp [decode, decodeHost]

theorem toNat_ofNat_of_fitsA {n : Nat} (h : fitsA n = true) : (BitVec.ofNat 8 n).toNat = n := by
  rw [BitVec.toNat_ofNat, Nat.mod_eq_of_lt (of_decide_eq_true h)]

theorem fitsA_toNat (a : BitVec 8) : fitsA a.toNat = true :=
  decide_eq_true a.isLt

/-- Field A's codes spell the targets up to channel 254 (spec/30_encoding.md R72). -/
theorem wellFormed_decodeTarget (a : BitVec 8) : (decodeTarget a).wellFormed = true := by
  have ha := a.isLt
  rw [Machine.decodeTarget_eq]
  split
  · rfl
  · exact decide_eq_true (by omega)

/-- An operand in the low bits of a wider field is read back. -/
theorem extractLsb'_setWidth {m n : Nat} (x : BitVec n) (h : n ≤ m) : (x.setWidth m).extractLsb' 0 n = x := by
  apply BitVec.eq_of_getLsbD_eq
  intro i hi
  simp [hi, hi.trans_le h]

/-- The three operands that ENCODE packs into field A (spec/30_encoding.md R71). -/
theorem codecFields_append (d : BitVec 1) (r a : BitVec 3) :
    (d ++ 0#1 ++ r ++ a : BitVec 8).extractLsb' 7 1 = d ∧ (d ++ 0#1 ++ r ++ a : BitVec 8).extractLsb' 3 3 = r ∧
      (d ++ 0#1 ++ r ++ a : BitVec 8).extractLsb' 0 3 = a := by
  revert d r a
  decide

/-! ### The codes of the wire operands -/

theorem ChannelAddr.code_le (a : ChannelAddr) : a.code ≤ 4 := by
  cases a <;> decide

theorem OutputRange.code_le (r : OutputRange) : r.code ≤ 5 := by
  cases r <;> decide

theorem ChannelAddr.exists_code {n : Nat} (h : n ≤ 4) : ∃ a : ChannelAddr, a.code = n := by
  interval_cases n
  exacts [⟨.chA, rfl⟩, ⟨.chB, rfl⟩, ⟨.chC, rfl⟩, ⟨.chD, rfl⟩, ⟨.all, rfl⟩]

theorem OutputRange.exists_code {n : Nat} (h : n ≤ 5) : ∃ r : OutputRange, r.code = n := by
  interval_cases n
  exacts [⟨.uni5V, rfl⟩, ⟨.uni10V, rfl⟩, ⟨.uni10V8, rfl⟩, ⟨.bip5V, rfl⟩, ⟨.bip10V, rfl⟩, ⟨.bip10V8, rfl⟩]

/-- The decoder of an ADDR code knows the codes of the five addresses and no other (spec/30_encoding.md R56). -/
theorem ChannelAddr.ofCode_eq_some_iff {code : BitVec 3} {a : ChannelAddr} :
    ofCode code = some a ↔ a.code = code.toNat := by
  constructor
  · intro h
    unfold ofCode at h
    split at h <;> cases h <;> exact Eq.symm ‹_›
  · intro h
    rw [ofCode, ← h]
    cases a <;> rfl

/-- The decoder of a range payload knows the codes of the six ranges and no other (spec/30_encoding.md R60). -/
theorem OutputRange.ofPayload_eq_some_iff {p : BitVec 16} {r : OutputRange} :
    ofPayload p = some r ↔ r.code = p.toNat := by
  constructor
  · intro h
    unfold ofPayload at h
    split at h <;> cases h <;> exact Eq.symm ‹_›
  · intro h
    rw [ofPayload, ← h]
    cases r <;> rfl

/-! ### The bits below PAD -/

/-- A word whose PAD is 0 is known by the bits below it. -/
theorem belowPad_eq_iff {u : Word} {w : DatagramWord} (hu : u.toNat < 2 ^ 24) : belowPad u = w ↔ u = w.setWidth 32 := by
  have hw := w.isLt
  rw [← BitVec.toNat_inj, ← BitVec.toNat_inj, belowPad, BitVec.extractLsb'_toNat, BitVec.toNat_setWidth,
    Nat.shiftRight_zero]
  omega

theorem setWidth_belowPad_pack (dir reg addr payload : Nat) :
    (belowPad (pack dir reg addr payload)).setWidth 32 = pack dir reg addr payload :=
  ((belowPad_eq_iff (toNat_pack_lt ..)).1 rfl).symm

/-- RSV, bit 22, as a digit of the word. -/
theorem rsv_eq_false_iff (w : DatagramWord) : w.getLsbD 22 = false ↔ w.toNat / 2 ^ 22 % 2 = 0 := by
  rw [BitVec.getLsbD, Nat.testBit_eq_decide_div_mod_eq, decide_eq_false_iff_not]
  omega

theorem rsv_belowPad_pack (dir reg addr payload : Nat) : (belowPad (pack dir reg addr payload)).getLsbD 22 = false := by
  rw [rsv_eq_false_iff, belowPad, BitVec.extractLsb'_toNat, Nat.shiftRight_zero, toNat_pack]
  omega

/-- A datagram with RSV 0 is the packed word of its fields. -/
theorem eq_belowPad_pack {w : DatagramWord} (hrsv : w.getLsbD 22 = false) :
    w = belowPad (pack (unpack (w.setWidth 32)).dir.toNat (unpack (w.setWidth 32)).reg.toNat
      (unpack (w.setWidth 32)).addr.toNat (unpack (w.setWidth 32)).payload.toNat) := by
  have hw := w.isLt
  rw [rsv_eq_false_iff] at hrsv
  rw [eq_comm, belowPad_eq_iff (toNat_pack_lt ..), ← BitVec.toNat_inj, toNat_pack]
  simp only [unpack, BitVec.extractLsb'_toNat, BitVec.toNat_setWidth, Nat.shiftRight_eq_div_pow]
  omega

/-! ### The six datagrams, decoded -/

theorem decodeWire_dacWriteWord (a : ChannelAddr) (p : BitVec 16) :
    decodeWire (belowPad (dacWriteWord a p)) = .ok (.dgDacWrite a p) := by
  have haddr : (BitVec.ofNat 3 a.code).toNat = a.code := by cases a <;> rfl
  have hcode : ChannelAddr.ofCode (BitVec.ofNat 3 a.code) = some a := ChannelAddr.ofCode_eq_some_iff.2 haddr.symm
  have hfields := unpack_pack 0#1 0#3 (BitVec.ofNat 3 a.code) p
  rw [haddr] at hfields
  rw [dacWriteWord, decodeWire, setWidth_belowPad_pack, rsv_belowPad_pack]
  simp [dirWrite, regDac, hcode, show unpack (pack 0 0 a.code p.toNat) = _ from hfields]

theorem decodeWire_rangeWriteWord (a : ChannelAddr) (r : OutputRange) :
    decodeWire (belowPad (rangeWriteWord a r)) = .ok (.dgRangeWrite a r) := by
  cases a <;> cases r <;> rfl

/-- A check of the decoder that rejects was passed, if the decoder answers. -/
theorem passed_of_eq_ok {c : Prop} [Decidable c] {why : DecodeError} {k : Except DecodeError Instr} {i : Instr}
    (h : (if c then .error why else k) = .ok i) : ¬ c ∧ k = .ok i := by
  by_cases hc : c
  · rw [if_pos hc] at h
    cases h
  · exact ⟨hc, by rwa [if_neg hc] at h⟩

/-- A comparison with a whole word held, if the decoder answers by it. -/
theorem matched_of_eq_ok {w v : DatagramWord} {why : DecodeError} {i j : Instr}
    (h : (if w = v then .ok j else .error why : Except DecodeError Instr) = .ok i) : w = v ∧ j = i := by
  by_cases hc : w = v
  · rw [if_pos hc] at h
    exact ⟨hc, Except.ok.inj h⟩
  · rw [if_neg hc] at h
    cases h

/-- Whatever a wire word decodes to is encoded by that word: each branch of the decoder that answers an operation names
the word's fields, or the whole word. -/
theorem encode_of_decodeWire {w : DatagramWord} {i : Instr} (h : decodeWire w = .ok i) : encode i = .wire w := by
  obtain ⟨hrsv, h⟩ := passed_of_eq_ok h
  obtain ⟨-, h⟩ := passed_of_eq_ok h
  have hw := eq_belowPad_pack (Bool.eq_false_iff.2 hrsv)
  generalize unpack (w.setWidth 32) = f at h hw
  by_cases hread : f.dir = 1
  · rw [if_pos hread] at h
    obtain ⟨rfl, rfl⟩ := matched_of_eq_ok h
    rfl
  rw [if_neg hread] at h
  have hdir : f.dir.toNat = dirWrite := congrArg BitVec.toNat (f.dir.eq_zero_or_eq_one.resolve_right hread)
  split at h
  case h_1 hreg =>
    split at h
    case h_1 haddr =>
      cases h
      rw [encode, dacWriteWord, ChannelAddr.ofCode_eq_some_iff.1 haddr, hw, hdir, hreg, regDac]
    case h_2 => cases h
  case h_2 hreg =>
    split at h
    case h_1 haddr =>
      split at h
      case h_1 hrange =>
        cases h
        rw [encode, rangeWriteWord, ChannelAddr.ofCode_eq_some_iff.1 haddr,
          OutputRange.ofPayload_eq_some_iff.1 hrange, hw, hdir, hreg, regOutputRange]
      case h_2 => cases h
    case h_2 => cases h
  case h_3 =>
    obtain ⟨rfl, rfl⟩ := matched_of_eq_ok h
    rfl
  case h_4 =>
    by_cases hnop : w = belowPad nopWord
    · rw [if_pos hnop] at h
      cases h
      rw [hnop, encode]
    · rw [if_neg hnop] at h
      obtain ⟨rfl, rfl⟩ := matched_of_eq_ok h
      rfl

/-- A wire word is encoded by the operations it decodes to, and by no others. -/
theorem decode_wire_eq_ok_iff {w : DatagramWord} {i : Instr} : decode (.wire w) = .ok i ↔ encode i = .wire w := by
  refine ⟨encode_of_decodeWire, fun h => ?_⟩
  cases i with
  | dgDacWrite a p =>
    cases h
    exact decodeWire_dacWriteWord a p
  | dgRangeWrite a r =>
    cases h
    exact decodeWire_rangeWriteWord a r
  | dgPowerUp | dgNop | dgLoad | dgPowerRead =>
    cases h
    rfl
  | _ => cases h

/-! ### The words of the table -/

namespace Machine

theorem exists_dacWriteWord_iff {u : Word} :
    (∃ a p, u = dacWriteWord a p) ↔ ∃ a p, a ≤ 4 ∧ p < 65536 ∧ u.toNat = a * 0x10000 + p := by
  constructor
  · rintro ⟨a, p, rfl⟩
    have ha := a.code_le
    refine ⟨a.code, p.toNat, ha, p.isLt, ?_⟩
    rw [dacWriteWord_eq, BitVec.toNat_ofNat]
    omega
  · rintro ⟨a, p, ha, hp, hu⟩
    obtain ⟨addr, rfl⟩ := ChannelAddr.exists_code ha
    refine ⟨addr, BitVec.ofNat 16 p, BitVec.eq_of_toNat_eq ?_⟩
    rw [hu, dacWriteWord_eq, BitVec.toNat_ofNat, BitVec.toNat_ofNat]
    omega

theorem exists_rangeWriteWord_iff {u : Word} :
    (∃ a r, u = rangeWriteWord a r) ↔ ∃ a r, a ≤ 4 ∧ r ≤ 5 ∧ u.toNat = 0x080000 + a * 0x10000 + r := by
  constructor
  · rintro ⟨a, r, rfl⟩
    have ha := a.code_le
    have hr := r.code_le
    refine ⟨a.code, r.code, ha, hr, ?_⟩
    rw [rangeWriteWord_eq, BitVec.toNat_ofNat]
    omega
  · rintro ⟨a, r, ha, hr, hu⟩
    obtain ⟨addr, rfl⟩ := ChannelAddr.exists_code ha
    obtain ⟨range, rfl⟩ := OutputRange.exists_code hr
    refine ⟨addr, range, BitVec.eq_of_toNat_eq ?_⟩
    rw [hu, rangeWriteWord_eq, BitVec.toNat_ofNat]
    omega

/-- The table's words by the datagrams they are (spec/30_encoding.md R63). -/
theorem sentWord_iff {u : Word} :
    SentWord u ↔ (∃ a p, u = dacWriteWord a p) ∨ (∃ a r, u = rangeWriteWord a r) ∨
      u = powerUpWord ∨ u = nopWord ∨ u = loadWord ∨ u = powerReadWord := by
  rw [SentWord, exists_dacWriteWord_iff, exists_rangeWriteWord_iff, powerUpWord_eq, nopWord_eq, loadWord_eq,
    powerReadWord_eq]

/-- The encodings of the wire operations are the words of the table (spec/30_encoding.md R63). -/
theorem exists_encode_eq_wire_iff (w : DatagramWord) : (∃ i, encode i = .wire w) ↔ SentWord (w.setWidth 32) := by
  have hword : ∀ d r a p, belowPad (pack d r a p) = w ↔ w.setWidth 32 = pack d r a p := fun d r a p =>
    (belowPad_eq_iff (toNat_pack_lt d r a p)).trans eq_comm
  rw [sentWord_iff]
  constructor
  · rintro ⟨i, h⟩
    cases i with
    | dgDacWrite a p => exact .inl ⟨a, p, (hword ..).1 (TableWord.wire.inj h)⟩
    | dgRangeWrite a r => exact .inr (.inl ⟨a, r, (hword ..).1 (TableWord.wire.inj h)⟩)
    | dgPowerUp => exact .inr (.inr (.inl ((hword ..).1 (TableWord.wire.inj h))))
    | dgNop => exact .inr (.inr (.inr (.inl ((hword ..).1 (TableWord.wire.inj h)))))
    | dgLoad => exact .inr (.inr (.inr (.inr (.inl ((hword ..).1 (TableWord.wire.inj h))))))
    | dgPowerRead => exact .inr (.inr (.inr (.inr (.inr ((hword ..).1 (TableWord.wire.inj h))))))
    | _ => cases h
  · rintro (⟨a, p, h⟩ | ⟨a, r, h⟩ | h | h | h | h)
    · exact ⟨.dgDacWrite a p, congrArg _ ((hword ..).2 h)⟩
    · exact ⟨.dgRangeWrite a r, congrArg _ ((hword ..).2 h)⟩
    · exact ⟨.dgPowerUp, congrArg _ ((hword ..).2 h)⟩
    · exact ⟨.dgNop, congrArg _ ((hword ..).2 h)⟩
    · exact ⟨.dgLoad, congrArg _ ((hword ..).2 h)⟩
    · exact ⟨.dgPowerRead, congrArg _ ((hword ..).2 h)⟩

/-! ### The statements -/

/-- Settles O2: a host operation by the equation of its OP, whose operands are read back from their fields; a datagram
by `decode_wire_eq_ok_iff`. -/
theorem decodeOfEncodeIsTheOperation : Obligations.DecodeOfEncodeIsTheOperation := by
  intro i hi
  cases i with
  | configure n res =>
    refine (decode_configureWord ..).trans ?_
    rw [toNat_ofNat_of_fitsA hi, extractLsb'_setWidth res (by decide)]
  | channelCount => exact decode_channelCountWord ..
  | setOutputRange t range =>
    refine (decode_setOutputRangeWord ..).trans ?_
    rw [decodeTarget_encodeTarget hi, extractLsb'_setWidth range (by decide)]
  | minValue => exact decode_minValueWord ..
  | maxValue => exact decode_maxValueWord ..
  | writeValue t value => exact (decode_writeValueWord ..).trans (by rw [decodeTarget_encodeTarget hi])
  | channelPoweredUp c => exact (decode_channelPoweredUpWord ..).trans (by rw [toNat_ofNat_of_fitsA hi])
  | referencePoweredUp k => exact (decode_referencePoweredUpWord ..).trans (by rw [toNat_ofNat_of_fitsA hi])
  | thermalShutdown k => exact (decode_thermalShutdownWord ..).trans (by rw [toNat_ofNat_of_fitsA hi])
  | channelOverCurrent c => exact (decode_channelOverCurrentWord ..).trans (by rw [toNat_ofNat_of_fitsA hi])
  | codecEncode dir reg addr payload =>
    obtain ⟨hdir, hreg, haddr⟩ := codecFields_append dir reg addr
    exact (decode_codecEncodeWord ..).trans (by rw [hdir, hreg, haddr])
  | codecDecode received => exact decode_codecDecodeWord ..
  | illegalOperation op =>
    have hop : legalOp (hostOp (hostWord op 0 0)) = false := by
      rw [hostOp_hostWord]
      exact Bool.eq_false_of_not_eq_true' hi
    exact congrArg Except.ok ((decodeHost_eq_illegalOperation_iff _ op).2 ⟨hostOp_hostWord .., hop⟩)
  | dgDacWrite | dgRangeWrite | dgPowerUp | dgNop | dgLoad | dgPowerRead => exact decode_wire_eq_ok_iff.2 rfl

theorem wellFormed_decodeHost (w : HostWord) : (decodeHost w).wellFormed = true := by
  unfold decodeHost
  split
  case h_1 | h_7 | h_8 | h_9 | h_10 => exact fitsA_toNat _
  case h_3 | h_6 => exact wellFormed_decodeTarget _
  case h_13 =>
    have hop : legalOp (hostOp w) = false := (legalOp_eq_false_iff _).2 (by simp only [imp_false] at *; omega)
    exact congrArg (! ·) hop
  all_goals rfl

/-- No operand of a datagram has a bound to keep. -/
theorem wellFormed_of_encode_eq_wire {i : Instr} {w : DatagramWord} (h : encode i = .wire w) :
    i.wellFormed = true := by
  cases i with
  | dgDacWrite | dgRangeWrite | dgPowerUp | dgNop | dgLoad | dgPowerRead => rfl
  | _ => cases h

/-- Settles O3: the decoder of host words is total, and each of its branches reads an operand that its field holds. -/
theorem hostWordsDecodeToWellFormedOperations : Obligations.HostWordsDecodeToWellFormedOperations := by
  refine ⟨fun w => ⟨decodeHost w, rfl⟩, fun t i h => ?_⟩
  cases t with
  | host w =>
    cases h
    exact wellFormed_decodeHost w
  | wire w => exact wellFormed_of_encode_eq_wire (decode_wire_eq_ok_iff.1 h)

/-- Settles O4: the words that decode are the encodings, and those are the words of the table. -/
theorem wireWordsDecodeExactlyWhenTheBlockSendsThem : Obligations.WireWordsDecodeExactlyWhenTheBlockSendsThem := by
  intro w
  simp only [decode_wire_eq_ok_iff]
  exact ⟨exists_encode_eq_wire_iff w, fun _ h => h⟩

/-- Settles O1: the decoder run on each of the thirteen words. -/
theorem wordsOfTheTestVectorsDecode : Obligations.WordsOfTheTestVectorsDecode := by
  unfold Obligations.WordsOfTheTestVectorsDecode
  decide

end Machine

end Sys2Proof
end

section
/-! The invariants and the frames of the operations: what an operation puts out (spec/41_addressing_and_transactions.md
section 3), what it keeps of the configuration (spec/10_state.md sections 2, 3 and 6), and what a step makes of both.
Each is shown of where the register writes start (`Prepared`) and of the writes (`afterWrites_spec`), and so of every
operation by `exec_cases`. -/

namespace Sys2Proof.Machine

/-! ### The events an operation puts out -/

/-- From `s` to `t` the trace grows by `new`, which leaves no transaction open, and the pin-level fields record the
levels last written in it (spec/10_state.md R22). -/
structure PutsOut (s t : State) (new : List Event) : Prop where
  trace : t.trace = s.trace ++ new
  closed : BusPhase.run .idle new = some .idle
  cs : t.csLvl = lastLevel .cs s.csLvl new
  ldac : t.ldacLvl = lastLevel .ldac s.ldacLvl new
  clr : t.clrLvl = lastLevel .clr s.clrLvl new

theorem PutsOut.trans {s t u : State} {xs ys : List Event} (h : PutsOut s t xs) (h' : PutsOut t u ys) :
    PutsOut s u (xs ++ ys) where
  trace := by rw [h'.trace, h.trace, List.append_assoc]
  closed := by
    rw [run_append, h.closed]
    exact h'.closed
  cs := by rw [lastLevel_append, ← h.cs, h'.cs]
  ldac := by rw [lastLevel_append, ← h.ldac, h'.ldac]
  clr := by rw [lastLevel_append, ← h.clr, h'.clr]

/-- A change of the other fields puts nothing out. -/
theorem putsOut_nil {s t : State} (htrace : t.trace = s.trace) (hcs : t.csLvl = s.csLvl)
    (hldac : t.ldacLvl = s.ldacLvl) (hclr : t.clrLvl = s.clrLvl) : PutsOut s t [] :=
  ⟨htrace.trans (List.append_nil _).symm, rfl, hcs, hldac, hclr⟩

theorem afterWrites_putsOut (s : State) (ws : List (ChipSel × Word)) :
    ∃ new, PutsOut s (s.afterWrites ws) new ∧ txFrames new = s.framesOf ws := by
  obtain ⟨new, hafter, hclosed, hframes, hlast⟩ := afterWrites_spec ws s
  rw [hafter]
  exact ⟨new, ⟨rfl, hclosed, by simp [hlast, ite_not], by simp [hlast], by simp [hlast]⟩, hframes⟩

/-- Before its register writes an operation at most sets up the pins, which makes no frame. -/
theorem Prepared.putsOut {i : Instr} {s s0 : State} (h : Prepared s i s0) :
    ∃ pins, PutsOut s s0 pins ∧ ∀ es, txFrames (pins ++ es) = txFrames es := by
  cases h with
  | same => exact ⟨[], putsOut_nil rfl rfl rfl rfl, fun _ => rfl⟩
  | configure n res r _ =>
    rw [setUpPins_eq]
    exact ⟨_, ⟨rfl, rfl, rfl, rfl, rfl⟩, fun _ => rfl⟩
  | range => exact ⟨[], putsOut_nil rfl rfl rfl rfl, fun _ => rfl⟩

theorem Completes.putsOut {i : Instr} {s t : State} (h : Completes i s t) :
    ∃ new, PutsOut s t new ∧ (txFrames new).length = transactionCount i := by
  obtain ⟨s0, ws, r, hprep, -, hcount, rfl⟩ := h
  obtain ⟨pins, hpins, hnone⟩ := hprep.putsOut
  obtain ⟨new, hnew, hframes⟩ := afterWrites_putsOut s0 ws
  refine ⟨pins ++ new, hpins.trans ⟨hnew.trace, hnew.closed, hnew.cs, hnew.ldac, hnew.clr⟩, ?_⟩
  rw [hnone, hframes, State.framesOf, List.length_map, hcount]

theorem exec_putsOut {i : Instr} {s t : State} (h : exec i s = .next t) :
    ∃ new, PutsOut s t new ∧ (t.faultCode = .none → (txFrames new).length = transactionCount i) := by
  obtain ⟨-, ⟨code, hcode, rfl⟩ | hdone⟩ := exec_cases h
  · exact ⟨[], putsOut_nil rfl rfl rfl rfl, fun hnone => absurd hnone hcode⟩
  · obtain ⟨new, hnew, hcount⟩ := hdone.putsOut
    exact ⟨new, hnew, fun _ => hcount⟩

/-! ### The invariants -/

theorem clampChipCount_bounds (n : Nat) : 1 ≤ (clampChipCount n).toNat ∧ (clampChipCount n).toNat ≤ 4 := by
  by_cases h : 1 ≤ n ∧ n ≤ 4
  · obtain ⟨hlo, hhi⟩ := h
    rw [clampChipCount_of_legal hlo hhi, BitVec.toNat_ofNat]
    omega
  · rw [clampChipCount_of_illegal (by omega)]
    decide

theorem Prepared.configOk {i : Instr} {s s0 : State} (h : Prepared s i s0) (hs : s.ConfigOk) : s0.ConfigOk := by
  cases h with
  | same => exact hs
  | configure n res r _ =>
    obtain ⟨hlo, hhi⟩ := clampChipCount_bounds n
    rw [setUpPins_eq]
    exact fun _ => ⟨hlo, hhi, rfl, rfl, rfl⟩
  | range => exact hs

theorem afterTransaction_configOk {s : State} (hs : s.ConfigOk) (tx : List Byte) :
    (s.afterTransaction tx).ConfigOk := by
  intro hv
  obtain ⟨hlo, hhi, -, hldac, hclr⟩ := hs hv
  exact ⟨hlo, hhi, rfl, hldac, hclr⟩

theorem afterWrites_configOk {s : State} (hs : s.ConfigOk) (ws : List (ChipSel × Word)) :
    (s.afterWrites ws).ConfigOk := by
  induction ws generalizing s with
  | nil => exact hs
  | cons p ps ih => exact ih (afterTransaction_configOk hs _)

theorem exec_configOk {i : Instr} {s t : State} (hs : s.ConfigOk) (h : exec i s = .next t) : t.ConfigOk := by
  obtain ⟨-, ⟨code, -, rfl⟩ | ⟨s0, ws, r, hprep, -, -, rfl⟩⟩ := exec_cases h
  · exact hs
  · exact afterWrites_configOk (hprep.configOk hs) ws

theorem exec_wellFramed {i : Instr} {s t : State} (hs : WellFramed s.trace) (h : exec i s = .next t) :
    WellFramed t.trace := by
  obtain ⟨new, hnew, -⟩ := exec_putsOut h
  rw [WellFramed, hnew.trace, run_append, hs]
  exact hnew.closed

/-! ### The statements -/

/-- Settles O33: no invariant asks anything of a block that is not configured and has put nothing out. -/
theorem resetMeetsTheInvariants : Obligations.ResetMeetsTheInvariants :=
  ⟨fun hv => absurd hv (by decide), rfl, rfl⟩

/-- Settles O34: a reset leaves the block unconfigured, a wait changes nothing, and an operation keeps the invariant by
`exec_configOk`. -/
theorem everyStepKeepsTheConfigurationInvariant : Obligations.EveryStepKeepsTheConfigurationInvariant := by
  intro s t hs h
  obtain ⟨-, rfl⟩ | ⟨-, -, rfl⟩ | ⟨i, p, rest, -, -, -, hexec⟩ := step_cases h
  · intro hv
    cases hv
  · exact hs
  · exact exec_configOk (s := s.accept p rest) hs hexec

/-- Settles O35: a reset and a wait put nothing out, and an operation puts out whole transactions. -/
theorem everyStepKeepsTransactionsClosed : Obligations.EveryStepKeepsTransactionsClosed := by
  intro s t hs h
  obtain ⟨-, rfl⟩ | ⟨-, -, rfl⟩ | ⟨i, p, rest, -, -, -, hexec⟩ := step_cases h
  · exact hs
  · exact hs
  · exact exec_wellFramed (s := s.accept p rest) hs hexec

/-- Settles O37: the levels recorded are a part of `PutsOut`. -/
theorem pinLevelsRecordTheLastWrite : Obligations.PinLevelsRecordTheLastWrite := by
  intro i s t h
  obtain ⟨new, hnew, -⟩ := exec_putsOut h
  exact ⟨new, hnew.trace, hnew.cs, hnew.ldac, hnew.clr⟩

/-- Settles O38: an operation that completes makes a frame for each of its register writes. -/
theorem eachOperationMakesItsTransactions : Obligations.EachOperationMakesItsTransactions := by
  intro i s t h hnone
  obtain ⟨new, hnew, hcount⟩ := exec_putsOut h
  exact ⟨new, hnew.trace, hcount hnone⟩

/-- Settles O49: every word a step sends is sent to a selector whose form it has. -/
theorem everyFrameHasOneOfTheTwoForms : Obligations.EveryFrameHasOneOfTheTwoForms := by
  intro s t h
  obtain ⟨new, htrace, hframes⟩ := step_addsOnlyFrames h
  refine ⟨new, htrace, fun f hf => ?_⟩
  obtain ⟨sel, w, hsel, hsent, rfl⟩ := hframes f hf
  exact hsent.twoFormFrame hsel

/-- Settles O39: a fault and a register write leave the configuration alone, so it changes only where an operation
prepares its writes. -/
theorem onlyConfigureAndSetOutputRangeWriteConfiguration :
    Obligations.OnlyConfigureAndSetOutputRangeWriteConfiguration := by
  intro i s t h
  obtain ⟨-, ⟨code, -, rfl⟩ | ⟨s0, ws, r, hprep, -, -, rfl⟩⟩ := exec_cases h
  · exact ⟨fun _ => ⟨rfl, rfl, rfl, rfl, rfl⟩, fun _ _ => rfl, fun hv => ⟨hv, rfl, rfl⟩⟩
  obtain ⟨new, hafter, -⟩ := afterWrites_spec ws s0
  rw [hafter]
  cases hprep with
  | same => exact ⟨fun _ => ⟨rfl, rfl, rfl, rfl, rfl⟩, fun _ _ => rfl, fun hv => ⟨hv, rfl, rfl⟩⟩
  | configure n res r hv =>
    refine ⟨fun hi => absurd rfl (hi n res), fun hi => absurd rfl (hi n res), fun hv' => ?_⟩
    rw [hv] at hv'
    cases hv'
  | range x range p =>
    exact ⟨fun _ => ⟨rfl, rfl, rfl, rfl, rfl⟩, fun _ hi => absurd rfl (hi x range), fun hv => ⟨hv, rfl, rfl⟩⟩

/-- Where an operation's register writes start, the parameter and the inputs are as the operation found them. -/
theorem Prepared.inputs_eq {i : Instr} {s s0 : State} (h : Prepared s i s0) :
    s0.datagramBytes = s.datagramBytes ∧ s0.pending = s.pending ∧ s0.resetLine = s.resetLine ∧
      s0.rowArg = s.rowArg ∧ s0.xfers = s.xfers ∧ s0.replies = s.replies := by
  cases h with
  | same | range => exact ⟨rfl, rfl, rfl, rfl, rfl, rfl⟩
  | configure n res r _ =>
    rw [setUpPins_eq]
    exact ⟨rfl, rfl, rfl, rfl, rfl, rfl⟩

/-- Settles O40: a fault transfers nothing, and each register write uses up the replies of one frame. -/
theorem operationsLeaveParametersAndInputsAlone : Obligations.OperationsLeaveParametersAndInputsAlone := by
  intro i s t h
  obtain ⟨-, ⟨code, hcode, rfl⟩ | ⟨s0, ws, r, hprep, -, hcount, rfl⟩⟩ := exec_cases h
  · exact ⟨rfl, rfl, rfl, rfl, 0, rfl, rfl, fun hnone => absurd hnone hcode⟩
  obtain ⟨new, hafter, -⟩ := afterWrites_spec ws s0
  obtain ⟨hbytes, hpending, hline, harg, hxfers, hreplies⟩ := hprep.inputs_eq
  rw [hafter]
  refine ⟨hbytes, hpending, hline, harg, ws.length * (s0.chips * s0.datagramBytes.toNat), ?_, ?_, fun _ => ?_⟩
  · rw [← hxfers]
  · rw [← hreplies]
  · rw [← hcount]
    rfl

end Sys2Proof.Machine
end

section
/-! The datagram rows of the sequencer, one by one and as the parts of WRITE_VALUE and of a status operation
(spec/41_addressing_and_transactions.md section 3; log 13). -/

namespace Sys2Proof.Machine

/-! ### The chips of a row -/

/-- The chips of an addressed row are there when its target is. -/
theorem hasSel_rowSel_iff {s : State} {a : ChannelAddr} :
    s.hasSel (s.rowSel a) ↔ (a = .all ∨ s.rowArg.chip < s.chips) := by
  by_cases ha : a = .all
  · rw [State.rowSel, if_pos ha]
    exact ⟨fun _ => .inl ha, fun _ => trivial⟩
  · rw [State.rowSel, if_neg ha, or_iff_right ha]
    rfl

theorem hasSel_rowLoadSel_iff {s : State} :
    s.hasSel s.rowLoadSel ↔ (s.rowArg.all = true ∨ s.rowArg.chip < s.chips) := by
  by_cases hall : s.rowArg.all = true
  · rw [State.rowLoadSel, if_pos hall]
    exact ⟨fun _ => .inl hall, fun _ => trivial⟩
  · rw [State.rowLoadSel, if_neg hall, or_iff_right hall]
    rfl

/-! ### Each row is one transaction

`s.hasSel` says that the chips are there, all of them or the one the row's argument names. -/

theorem exec_dgDacWrite {s : State} {a : ChannelAddr} (p : BitVec 16) (hf : s.faultCode = .none)
    (hv : s.cfgValid = true) (hs : s.hasSel (s.rowSel a)) :
    exec (.dgDacWrite a p) s =
      .next (s.afterTransaction (s.frameToSel (s.rowSel a) (BitVec.ofNat 32 (a.code * 0x10000 + p.toNat)))) := by
  change execDgDacWrite a p s = _
  rw [execDgDacWrite, targetChecks_present hf hv (hasTarget_rowTarget.2 (hasSel_rowSel_iff.1 hs)), resolve_rowTarget,
    writeReg_eq, dacWriteWord_eq]

theorem exec_dgRangeWrite {s : State} {a : ChannelAddr} (r : OutputRange) (hf : s.faultCode = .none)
    (hv : s.cfgValid = true) (hs : s.hasSel (s.rowSel a)) :
    exec (.dgRangeWrite a r) s = .next (s.afterTransaction
      (s.frameToSel (s.rowSel a) (BitVec.ofNat 32 (0x080000 + a.code * 0x10000 + r.code)))) := by
  change execDgRangeWrite a r s = _
  rw [execDgRangeWrite, targetChecks_present hf hv (hasTarget_rowTarget.2 (hasSel_rowSel_iff.1 hs)), resolve_rowTarget,
    writeReg_eq, rangeWriteWord_eq]

theorem exec_dgPowerUp {s : State} (hf : s.faultCode = .none) (hv : s.cfgValid = true) :
    exec .dgPowerUp s = .next (s.afterTransaction (s.frameToAll 0x10001F#32)) := by
  change execDgPowerUp s = _
  rw [execDgPowerUp, whenConfigured_configured hf hv, writeReg_eq, powerUpWord_eq]
  rfl

theorem exec_dgNop {s : State} (hf : s.faultCode = .none) (hv : s.cfgValid = true) :
    exec .dgNop s = .next (s.afterTransaction (s.frameToAll 0x180000#32)) := by
  change execDgNop s = _
  rw [execDgNop, whenConfigured_configured hf hv, writeReg_eq, nopWord_eq]
  rfl

theorem exec_dgLoad {s : State} (hf : s.faultCode = .none) (hv : s.cfgValid = true) (hs : s.hasSel s.rowLoadSel) :
    exec .dgLoad s = .next (s.afterTransaction (s.frameToSel s.rowLoadSel 0x1D0000#32)) := by
  change execDgLoad s = _
  rw [execDgLoad, whenConfigured_configured hf hv, rowLoadSel_eq, checkSel_of_hasSel hs, unlessFault_none, writeReg_eq,
    loadWord_eq]

theorem exec_dgPowerRead {s : State} (hf : s.faultCode = .none) (hv : s.cfgValid = true)
    (hk : s.rowArg.chip < s.chips) :
    exec .dgPowerRead s = .next (s.afterTransaction (s.frameToChip s.rowArg.chip 0x900000#32)) := by
  change execDgPowerRead s = _
  rw [execDgPowerRead, chipChecks_present hf hv hk, writeReg_eq, powerReadWord_eq]
  rfl

/-- Settles O24: one equation for each row. -/
theorem eachDatagramIsOneRegisterWrite : Obligations.EachDatagramIsOneRegisterWrite := fun _ hf hv =>
  ⟨fun _ p hs => exec_dgDacWrite p hf hv (hasSel_rowSel_iff.2 hs),
    fun _ r hs => exec_dgRangeWrite r hf hv (hasSel_rowSel_iff.2 hs),
    exec_dgPowerUp hf hv, exec_dgNop hf hv,
    fun hs => exec_dgLoad hf hv (hasSel_rowLoadSel_iff.2 hs),
    exec_dgPowerRead hf hv⟩

/-! ### The faults of a row -/

/-- Every datagram row checks for a configuration first (log 13). -/
theorem exec_datagram_unconfigured {i : Instr} {s : State} (hi : isHostCommand i = false) (hf : s.faultCode = .none)
    (hv : s.cfgValid = false) : exec i s = .next (s.faulted .notConfigured) := by
  cases i with
  | dgDacWrite | dgRangeWrite | dgPowerUp | dgNop | dgLoad | dgPowerRead => exact whenConfigured_unconfigured hf hv
  | _ => cases hi

theorem not_hasTarget_rowTarget {s : State} {a : ChannelAddr} (ha : a ≠ .all) (hk : s.chips ≤ s.rowArg.chip) :
    ¬ s.hasTarget (s.rowTarget a) := fun h =>
  (hasTarget_rowTarget.1 h).elim ha (Nat.not_lt.mpr hk)

/-- Settles O25: the check for a configuration, then the check of the row's target, selector or chip. -/
theorem datagramsNeedAConfiguredBlockAndAPresentChip : Obligations.DatagramsNeedAConfiguredBlockAndAPresentChip := by
  refine fun s hf => ⟨fun hv i hi => exec_datagram_unconfigured hi hf hv, fun hv hk => ⟨?_, ?_, ?_, ?_⟩⟩
  · exact fun a p ha => targetChecks_absent hf hv (not_hasTarget_rowTarget ha hk)
  · exact fun a r ha => targetChecks_absent hf hv (not_hasTarget_rowTarget ha hk)
  · intro hone
    have hsel : s.rowArg.sel = .chip s.rowArg.chip := if_neg (ne_true_of_eq_false hone)
    change execDgLoad s = _
    rw [execDgLoad, hsel]
    exact chipChecks_absent hf hv hk
  · exact chipChecks_absent hf hv hk

/-! ### A host command as a run of rows -/

/-- The argument that names a target's chips. -/
def RowArg.matchesTarget (arg : RowArg) (t : Target) : Prop :=
  arg.all = false ∧ (resolve t).1 = .chip arg.chip ∨ arg.all = true ∧ (resolve t).1 = .allChips

/-- With that argument the rows of a target go to the target's chips. -/
theorem RowArg.matchesTarget.sel_eq {s : State} {t : Target} (h : s.rowArg.matchesTarget t) :
    s.rowSel (resolve t).2 = (resolve t).1 ∧ s.rowLoadSel = (resolve t).1 := by
  cases t with
  | channel c =>
    obtain ⟨hone, hchip⟩ | ⟨-, hchip⟩ := h
    · have haddr : (resolve (.channel c)).2 ≠ .all := addrOf_ne_all _
      rw [hchip, State.rowSel, if_neg haddr, State.rowLoadSel, hone]
      exact ⟨rfl, rfl⟩
    · cases hchip
  | all =>
    obtain ⟨-, hchip⟩ | ⟨hall, hchip⟩ := h
    · cases hchip
    · rw [hchip, State.rowLoadSel, hall]
      exact ⟨rfl, rfl⟩

/-- The two rows of WRITE_VALUE in a block that has their argument in place. -/
theorem exec_dgDacWrite_resolve {t : Target} {s : State} (payload : BitVec 16) (hf : s.faultCode = .none)
    (hv : s.cfgValid = true) (ht : s.hasTarget t) (harg : s.rowArg.matchesTarget t) :
    exec (.dgDacWrite (resolve t).2 payload) s = .next (s.afterTransaction
      (s.frameToTarget t (BitVec.ofNat 32 (targetAddr t * 0x10000 + payload.toNat)))) := by
  obtain ⟨hsel, -⟩ := harg.sel_eq
  have hthere := hasSel_resolve ht
  rw [exec_dgDacWrite payload hf hv (by rwa [hsel]), hsel, frameToSel_resolve, code_resolve]

theorem exec_dgLoad_resolve {t : Target} {s : State} (hf : s.faultCode = .none) (hv : s.cfgValid = true)
    (ht : s.hasTarget t) (harg : s.rowArg.matchesTarget t) :
    exec .dgLoad s = .next (s.afterTransaction (s.frameToTarget t 0x1D0000#32)) := by
  obtain ⟨-, hsel⟩ := harg.sel_eq
  have hthere := hasSel_resolve ht
  rw [exec_dgLoad hf hv (by rwa [hsel]), hsel, frameToSel_resolve]

/-- A frame does not depend on the argument of a datagram. -/
theorem frameToTarget_withRowArg (s : State) (arg : RowArg) (t : Target) (w : Word) :
    State.frameToTarget { s with rowArg := arg } t w = s.frameToTarget t w := by
  cases t <;> rfl

/-- Settles O26: the rows send what WRITE_VALUE sends, and its frames do not depend on the argument. -/
theorem writeValueIsADacWriteThenALoad : Obligations.WriteValueIsADacWriteThenALoad := by
  intro t arg value s hf hv ht harg
  have hwrite := exec_dgDacWrite_resolve (s := { s with rowArg := arg }) (scale s.resolution value) hf hv ht harg
  refine ⟨_, _, hwrite, exec_dgLoad_resolve (s := State.afterTransaction _ _) hf hv ht harg, ?_⟩
  rw [exec_writeValue value hf hv ht, frameToTarget_afterTransaction, frameToTarget_withRowArg,
    frameToTarget_withRowArg]
  rfl

/-- A status operation tests some bit of the reply of its chip (spec/44_status.md R118). -/
theorem exec_status {i : Instr} {k : Nat} {s : State} (hi : statusChip i = some k) (hf : s.faultCode = .none)
    (hv : s.cfgValid = true) (hk : k < s.chips) : ∃ bit, exec i s = .next (s.afterStatus k bit) := by
  cases i with
  | channelPoweredUp c | channelOverCurrent c =>
    cases hi
    exact ⟨_, channelStatus_present hf hv (by omega)⟩
  | referencePoweredUp k | thermalShutdown k =>
    cases hi
    exact ⟨_, chipStatus_present hf hv hk⟩
  | _ => cases hi

/-- Settles O27: the rows are the two transactions of the read that `State.afterStatus` is made of. -/
theorem statusReadIsAPowerReadThenANop : Obligations.StatusReadIsAPowerReadThenANop := by
  intro i k s hi hf hv hk
  obtain ⟨bit, hexec⟩ := exec_status hi hf hv hk
  have hread := exec_dgPowerRead (s := { s with rowArg := ⟨k, false⟩ }) hf hv hk
  exact ⟨_, _, _, hread, exec_dgNop hf hv, hexec⟩

end Sys2Proof.Machine
end

section
/-! The step: what it takes, in the order reset, waiting command, nothing (spec/70_reset_and_hazards.md section 1; logs
1, 11, 12, 14), and that it reads no argument of an earlier datagram (spec/20_memory.md section 7; log 13). -/

namespace Sys2Proof.Machine

/-! ### One equation for each thing a step takes -/

theorem step_reset {s : State} (hr : s.resetLine = true) : step s = .next s.takeReset := by
  rw [step, State.fetch, if_pos hr]

theorem step_idle {s : State} (hr : s.resetLine = false) (hp : s.pending = []) : step s = s.waitForCommand := by
  rw [step, State.fetch, if_neg (ne_true_of_eq_false hr), hp]

theorem step_run {s : State} {p : Pending} {rest : List Pending} {i : Instr} (hr : s.resetLine = false)
    (hp : s.pending = p :: rest) (hd : decode p.word = .ok i) : step s = exec i (s.accept p rest) := by
  rw [step, State.fetch, if_neg (ne_true_of_eq_false hr), hp]
  simp only [hd]

theorem step_undecodable {s : State} {p : Pending} {rest : List Pending} {why : DecodeError}
    (hr : s.resetLine = false) (hp : s.pending = p :: rest) (hd : decode p.word = .error why) :
    step s = s.refuseDatagram why := by
  rw [step, State.fetch, if_neg (ne_true_of_eq_false hr), hp]
  simp only [hd]

/-! ### Reset and stuck -/

/-- Without a reset a faulted block is stuck, whatever waits (spec/60_exceptions.md R129). -/
theorem step_stuck {s : State} (hr : s.resetLine = false) (hf : s.faultCode ≠ .none) : step s = .fault .stuck := by
  cases hp : s.pending with
  | nil => exact (step_idle hr hp).trans (whenRunning_stuck hf)
  | cons p rest =>
    cases hd : decode p.word with
    | ok i => exact (step_run hr hp hd).trans (exec_stuck i hf)
    | error why => exact (step_undecodable hr hp hd).trans (whenRunning_stuck hf)

/-- Settles O28: operations by `exec_stuck`, steps by `step_stuck`, and the reset by its field lemmas. -/
theorem aFaultedBlockIsStuck : Obligations.AFaultedBlockIsStuck := fun s hf =>
  ⟨fun i => exec_stuck i hf, fun hr => step_stuck hr hf, fun hr => ⟨s.takeReset, step_reset hr, s.takeReset_faultCode⟩⟩

/-- Settles O32: the fields of `State.takeReset`; without it a faulted block would be stuck, and no operation takes
`CFG_VALID` back. -/
theorem resetAloneClearsFaultAndConfiguration : Obligations.ResetAloneClearsFaultAndConfiguration := by
  refine ⟨fun s hr => ?_, fun s t hr h => ⟨?_, ?_⟩⟩
  · exact ⟨s.takeReset, step_reset hr, rfl, rfl, rfl, rfl, rfl, rfl, rfl, rfl, rfl⟩
  · by_contra hf
    rw [step_stuck hr hf] at h
    cases h
  · obtain ⟨hreset, -⟩ | ⟨-, -, rfl⟩ | ⟨i, p, rest, -, -, -, hexec⟩ := step_cases h
    · rw [hr] at hreset
      cases hreset
    · exact id
    · obtain ⟨-, -, hkept⟩ := onlyConfigureAndSetOutputRangeWriteConfiguration i _ t hexec
      exact fun hv => (hkept hv).1

/-! ### Commands -/

/-- Settles O44: the equation of a step that runs a command. -/
theorem aStepRunsTheDecodedCommand : Obligations.AStepRunsTheDecodedCommand :=
  fun _ _ _ _ hr hp hd _ => step_run hr hp hd

/-- Settles O45: the wait of a block that is not stuck. -/
theorem anIdleBlockWaits : Obligations.AnIdleBlockWaits :=
  fun _ hr hp hf => (step_idle hr hp).trans (whenRunning_running hf)

/-- Settles O46: the refusal of a block that is not stuck. -/
theorem aWordNeverSentIsRefused : Obligations.AWordNeverSentIsRefused :=
  fun _ arg w _ _ hr hf hp hd => (step_undecodable (p := .datagram arg w) hr hp hd).trans (whenRunning_running hf)

/-! ### No argument is read from an earlier datagram -/

/-- The command that a step takes puts its own argument in place, so what stood there does not matter. -/
theorem step_withRowArg {s : State} {p : Pending} {rest : List Pending} (arg : RowArg) (hr : s.resetLine = false)
    (hp : s.pending = p :: rest) : step { s with rowArg := arg } = step s := by
  have hr' : ({ s with rowArg := arg } : State).resetLine = false := hr
  have hp' : ({ s with rowArg := arg } : State).pending = p :: rest := hp
  cases hd : decode p.word with
  | ok i => exact (step_run hr' hp' hd).trans (step_run hr hp hd).symm
  | error why => exact (step_undecodable hr' hp' hd).trans (step_undecodable hr hp hd).symm

/-- A reset and a wait keep the argument that stands; every other step does not see it. -/
theorem step_withRowArg_cases (s : State) (arg : RowArg) :
    step { s with rowArg := arg } = step s ∨
      ∃ t, step s = .next t ∧ step { s with rowArg := arg } = .next { t with rowArg := arg } := by
  by_cases hr : s.resetLine = true
  · exact .inr ⟨s.takeReset, step_reset hr, step_reset (s := { s with rowArg := arg }) hr⟩
  have hr : s.resetLine = false := Bool.eq_false_iff.2 hr
  by_cases hp : s.pending = []
  · by_cases hf : s.faultCode = .none
    · exact .inr ⟨s, anIdleBlockWaits s hr hp hf, anIdleBlockWaits { s with rowArg := arg } hr hp hf⟩
    · exact .inl ((step_stuck (s := { s with rowArg := arg }) hr hf).trans (step_stuck hr hf).symm)
  · obtain ⟨p, rest, hp⟩ := List.exists_cons_of_ne_nil hp
    exact .inl (step_withRowArg arg hr hp)

/-- Settles O48: in either case of `step_withRowArg_cases` the step ends the same, up to the argument. -/
theorem noStepReadsAnEarlierDatagramsArgument : Obligations.NoStepReadsAnEarlierDatagramsArgument := by
  intro s arg
  obtain hsame | ⟨u, hstep, hstep'⟩ := step_withRowArg_cases s arg
  · rw [hsame]
    exact ⟨fun t h => ⟨t.rowArg, h⟩, fun _ h => h, fun _ h => h⟩
  · rw [hstep, hstep']
    refine ⟨fun t h => ?_, nofun, nofun⟩
    cases h
    exact ⟨arg, rfl⟩

end Sys2Proof.Machine
end

section
/-! What the results and the packed view show of the configuration: the kind of a completed command's result
(spec/30_encoding.md R79), the bounds after a range is set (spec/10_state.md section 5), and the view of
spec/10_state.md R23. -/

namespace Sys2Proof.Machine

/-! ### A command that completes has passed its checks -/

theorem eq_of_whenRunning_completes {s t : State} {k : Outcome} (h : whenRunning s k = .next t) : k = .next t := by
  by_cases hf : s.faultCode = .none
  · rwa [whenRunning_running hf] at h
  · rw [whenRunning_stuck hf] at h
    cases h

theorem eq_of_unlessFault_completes {code : FaultCode} {s t : State} {k : Outcome}
    (h : unlessFault code s k = .next t) (ht : t.faultCode = .none) : k = .next t := by
  by_cases hc : code = .none
  · rwa [hc, unlessFault_none] at h
  · rw [unlessFault_of_ne_none s k hc] at h
    cases h
    exact absurd ht hc

theorem configured_of_whenConfigured_completes {s t : State} {k : Outcome} (h : whenConfigured s k = .next t)
    (ht : t.faultCode = .none) : s.cfgValid = true ∧ k = .next t := by
  have h := eq_of_whenRunning_completes h
  by_cases hv : s.cfgValid = true
  · exact ⟨hv, by rwa [if_pos hv] at h⟩
  · rw [if_neg hv] at h
    cases h
    cases ht

/-! ### The kind of a result -/

/-- A result as the row of an operation has it (spec/30_encoding.md R79). -/
def Result.FitsRow (r : Result) (i : Instr) : Prop :=
  r.kind = kindReturned i ∧ (kindReturned i = .none → r.res = 0) ∧ (kindReturned i = .bool → r.res = 0 ∨ r.res = 1)

/-- A row that answers neither NONE nor BOOL bounds no value. -/
theorem Result.fitsRow_of_kind {r : Result} {i : Instr} (hkind : r.kind = kindReturned i)
    (hnone : kindReturned i ≠ .none) (hbool : kindReturned i ≠ .bool) : r.FitsRow i :=
  ⟨hkind, fun h => absurd h hnone, fun h => absurd h hbool⟩

theorem Result.fitsRow_of_none {i : Instr} (hi : kindReturned i = .none) : Result.FitsRow ⟨.none, 0⟩ i :=
  ⟨hi.symm, fun _ => rfl, fun h => absurd (hi.symm.trans h) (by decide)⟩

theorem testStatus_fitsRow {i : Instr} (hi : kindReturned i = .bool) (s : State) (k bit : Nat) :
    (s.testStatus k bit).result.FitsRow i := by
  refine ⟨hi.symm, fun h => absurd (hi.symm.trans h) (by decide), fun _ => ?_⟩
  change (BitVec.ofBool _).setWidth 32 = 0 ∨ (BitVec.ofBool _).setWidth 32 = 1
  cases statusBit (s.readPowerControl k).1 bit
  · exact .inl rfl
  · exact .inr rfl

/-- A command behind the check for a configuration answers what stands behind the check. -/
theorem fitsRow_of_whenConfigured {i : Instr} {s t u : State} {code : FaultCode}
    (h : whenConfigured s (unlessFault code s (.next u)) = .next t) (ht : t.faultCode = .none)
    (hu : u.result.FitsRow i) : t.result.FitsRow i := by
  obtain ⟨-, h⟩ := configured_of_whenConfigured_completes h ht
  cases eq_of_unlessFault_completes h ht
  exact hu

theorem configure_fitsRow {n : Nat} {res : BitVec 2} {s t : State} (h : exec (.configure n res) s = .next t)
    (ht : t.faultCode = .none) : t.result.FitsRow (.configure n res) := by
  have hf : s.faultCode = .none := by
    by_contra hf
    rw [exec_configure_stuck n res hf] at h
    cases h
  cases hv : s.cfgValid with
  | true =>
    rw [exec_configure_alreadyConfigured n res hf hv] at h
    cases h
    cases ht
  | false =>
    cases hres : Resolution.ofCode res with
    | none =>
      rw [exec_configure_invalidResolution n hf hv hres] at h
      cases h
      cases ht
    | some r =>
      rw [exec_configure n hf hv hres] at h
      cases h
      exact Result.fitsRow_of_none rfl

/-- Settles O41: each command answers, behind its checks, a result of its own row. -/
theorem completedCommandsAnswerTheirKind : Obligations.CompletedCommandsAnswerTheirKind := by
  intro i s t hi h ht
  cases i with
  | configure n res => exact configure_fitsRow h ht
  | channelCount | minValue | maxValue =>
    exact fitsRow_of_whenConfigured (code := .none) h ht (Result.fitsRow_of_kind rfl nofun nofun)
  | setOutputRange | writeValue => exact fitsRow_of_whenConfigured h ht (Result.fitsRow_of_none rfl)
  | channelPoweredUp | referencePoweredUp | thermalShutdown | channelOverCurrent =>
    exact fitsRow_of_whenConfigured h ht (testStatus_fitsRow rfl ..)
  | codecEncode | codecDecode =>
    cases eq_of_whenRunning_completes h
    exact Result.fitsRow_of_kind rfl nofun nofun
  | illegalOperation op =>
    cases eq_of_whenRunning_completes h
    cases ht
  | dgDacWrite | dgRangeWrite | dgPowerUp | dgNop | dgLoad | dgPowerRead => cases hi

/-! ### The bounds after a range is set -/

/-- The bounds of the polarity of each range operand, at each resolution (spec/43_output.md R110, R113, R114). -/
theorem bounds_mem_rangeTable (r : Resolution) (range : BitVec 3) :
    (r, minBound r (rangeMap range).1, maxBound r (rangeMap range).1) ∈
      if 3 ≤ range.toNat ∧ range.toNat ≤ 5 then
        [(Resolution.r12, (-2048 : Int), (2047 : Int)), (.r14, -8192, 8191), (.r16, -32768, 32767)]
      else [(.r12, 0, 4095), (.r14, 0, 16383), (.r16, 0, 65536)] := by
  revert range
  cases r <;> decide

/-- A SET_OUTPUT_RANGE that completes leaves the polarity of its range, whatever its target (spec/10_state.md R32). -/
theorem setOutputRange_completes {t : Target} {range : BitVec 3} {s s1 : State}
    (h : exec (.setOutputRange t range) s = .next s1) (h1 : s1.faultCode = .none) :
    s1.cfgValid = true ∧ s1.resolution = s.resolution ∧ s1.polarity = (rangeMap range).1 := by
  obtain ⟨hv, h⟩ := configured_of_whenConfigured_completes h h1
  cases eq_of_unlessFault_completes h h1
  rw [writeReg_eq]
  exact ⟨hv, rfl, rfl⟩

/-- Settles O17: the polarity and resolution left are what the two bounds are read from. -/
theorem laterBoundsFollowTheLastRangeSet : Obligations.LaterBoundsFollowTheLastRangeSet := by
  intro t range s s1 h h1
  obtain ⟨hv, hres, hpol⟩ := setOutputRange_completes h h1
  have hmin := exec_minValue h1 hv
  have hmax := exec_maxValue h1 hv
  rw [hres, hpol] at hmin hmax
  exact ⟨_, _, _, _, hmin, hmax, rfl, rfl, bounds_mem_rangeTable s.resolution range⟩

/-! ### The packed view -/

/-- The view as a number: each field at its place (spec/10_state.md R23). -/
theorem toNat_cfg (s : State) :
    s.cfg.toNat = s.faultCode.code.toNat * 2 ^ 8 + s.polarity.code.toNat * 2 ^ 6 + s.resolution.code.toNat * 2 ^ 4 +
      s.chipCount.toNat * 2 + (BitVec.ofBool s.cfgValid).toNat := by
  rw [State.cfg]
  simp only [toNat_cat, BitVec.toNat_ofNat]
  omega

/-- A field of a word is a quotient and remainder of the word. -/
theorem extractLsb'_eq_of_toNat {n start len : Nat} {w : BitVec n} {x : BitVec len}
    (h : w.toNat / 2 ^ start % 2 ^ len = x.toNat) : w.extractLsb' start len = x := by
  apply BitVec.eq_of_toNat_eq
  rw [BitVec.extractLsb'_toNat, Nat.shiftRight_eq_div_pow, h]

/-- Settles O47: the fields as quotients and remainders of the view. -/
theorem configViewHoldsEachFieldInItsPlace : Obligations.ConfigViewHoldsEachFieldInItsPlace := by
  intro s
  have hcfg := toNat_cfg s
  have hfault := s.faultCode.code.isLt
  have hpol := s.polarity.code.isLt
  have hres := s.resolution.code.isLt
  have hchips := s.chipCount.isLt
  have hvalid := (BitVec.ofBool s.cfgValid).isLt
  have hresField : s.cfg.extractLsb' 4 2 = s.resolution.code := extractLsb'_eq_of_toNat (by omega)
  have hpolField : s.cfg.extractLsb' 6 1 = s.polarity.code := extractLsb'_eq_of_toNat (by omega)
  have hfaultField : s.cfg.extractLsb' 8 4 = s.faultCode.code := extractLsb'_eq_of_toNat (by omega)
  refine ⟨extractLsb'_eq_of_toNat (by omega), extractLsb'_eq_of_toNat (by omega), ?_, ?_,
    extractLsb'_eq_of_toNat (x := 0#1) (by rw [BitVec.toNat_ofNat]; omega), ?_,
    extractLsb'_eq_of_toNat (x := 0#20) (by rw [BitVec.toNat_ofNat]; omega)⟩
  · rw [hresField]
    cases s.resolution <;> decide
  · rw [hpolField]
    cases s.polarity <;> decide
  · rw [hfaultField]
    cases s.faultCode <;> decide

end Sys2Proof.Machine
end

section
/-! What an unconfigured block does not read: the configuration it does not have (spec/10_state.md section 2; logs 2, 3,
4). -/

namespace Sys2Proof.Machine

/-- What an operation of an unconfigured block answers, with other values in the fields that hold none: the same state
up to those fields, or the very same if it wrote them. -/
def ReadsNoConfiguration (i : Instr) (s : State) (n : BitVec 3) (r : Resolution) (p : Polarity) : Prop :=
  ∃ t, exec i s = .next t ∧
    exec i (s.withConfigFields n r p) = .next (if t.cfgValid then t else t.withConfigFields n r p)

theorem readsNoConfiguration_of_unconfigured {i : Instr} {s t : State} {n : BitVec 3} {r : Resolution} {p : Polarity}
    (h : exec i s = .next t) (h' : exec i (s.withConfigFields n r p) = .next (t.withConfigFields n r p))
    (ht : t.cfgValid = false) : ReadsNoConfiguration i s n r p :=
  ⟨t, h, by rw [h', if_neg (ne_true_of_eq_false ht)]⟩

/-- Every check for a configuration ends in the fault before anything is read. -/
theorem readsNoConfiguration_of_whenConfigured {i : Instr} {s : State} {k k' : Outcome} {n : BitVec 3} {r : Resolution}
    {p : Polarity} (hf : s.faultCode = .none) (hv : s.cfgValid = false) (h : exec i s = whenConfigured s k)
    (h' : exec i (s.withConfigFields n r p) = whenConfigured (s.withConfigFields n r p) k') :
    ReadsNoConfiguration i s n r p :=
  readsNoConfiguration_of_unconfigured (h.trans (whenConfigured_unconfigured hf hv))
    (h'.trans (whenConfigured_unconfigured (s := s.withConfigFields n r p) hf hv)) hv

/-- CONFIGURE writes the three fields before it reads them. -/
theorem configure_readsNoConfiguration (m : Nat) (res : BitVec 2) {s : State} (n : BitVec 3) (r : Resolution)
    (p : Polarity) (hf : s.faultCode = .none) (hv : s.cfgValid = false) :
    ReadsNoConfiguration (.configure m res) s n r p := by
  cases hres : Resolution.ofCode res with
  | none =>
    exact readsNoConfiguration_of_unconfigured (exec_configure_invalidResolution m hf hv hres)
      (exec_configure_invalidResolution (s := s.withConfigFields n r p) m hf hv hres) hv
  | some r' =>
    exact ⟨_, exec_configure m hf hv hres, exec_configure (s := s.withConfigFields n r p) m hf hv hres⟩

theorem exec_readsNoConfiguration (i : Instr) {s : State} (n : BitVec 3) (r : Resolution) (p : Polarity)
    (hf : s.faultCode = .none) (hv : s.cfgValid = false) : ReadsNoConfiguration i s n r p := by
  cases i with
  | configure m res => exact configure_readsNoConfiguration m res n r p hf hv
  | codecEncode dir reg addr payload =>
    exact readsNoConfiguration_of_unconfigured (exec_codecEncode dir reg addr payload hf)
      (exec_codecEncode (s := s.withConfigFields n r p) dir reg addr payload hf) hv
  | codecDecode received =>
    exact readsNoConfiguration_of_unconfigured (exec_codecDecode received hf)
      (exec_codecDecode (s := s.withConfigFields n r p) received hf) hv
  | illegalOperation op =>
    exact readsNoConfiguration_of_unconfigured (exec_illegalOperation op hf)
      (exec_illegalOperation (s := s.withConfigFields n r p) op hf) hv
  | _ => exact readsNoConfiguration_of_whenConfigured hf hv rfl rfl

/-- Settles O42: a faulted block is stuck whatever its fields hold, and otherwise `exec_readsNoConfiguration`. -/
theorem unconfiguredBlockReadsNoConfiguration : Obligations.UnconfiguredBlockReadsNoConfiguration := by
  intro i s n r p hv
  by_cases hf : s.faultCode = .none
  · obtain ⟨u, hexec, hexec'⟩ := exec_readsNoConfiguration i n r p hf hv
    rw [hexec, hexec']
    refine ⟨fun t h => ?_, nofun, nofun⟩
    cases h
    rfl
  · rw [exec_stuck i hf, exec_stuck (s := s.withConfigFields n r p) i hf]
    refine ⟨fun t h => ?_, fun _ h => h, nofun⟩
    cases h

end Sys2Proof.Machine
end

section
/-! What comes back on the bus reaches the trace's record of it and, in a status operation, the result
(spec/20_memory.md section 4, spec/41_addressing_and_transactions.md R98): two runs with other bytes to come stay the
same through each check and each register write, and so through each operation. -/

namespace Sys2Proof.Machine

/-! ### Two runs with other bytes to come -/

/-- `s` with other bytes to come. -/
def State.withReplies (s : State) (rs : List Byte) (x : Nat) : State := { s with replies := rs, xfers := x }

/-- `t'` has sent what `t` has, and is `t` but for the record of what was received, the bytes still to come and, for a
status operation, the result. -/
def SameButReceived (status : Bool) (t t' : State) : Prop :=
  ∃ (events : List Event) (rs : List Byte) (x : Nat) (r : Result),
    events.map Event.sent = t.trace.map Event.sent ∧ (status = false → r = t.result) ∧
    t' = { t with trace := events, replies := rs, xfers := x, result := r }

/-- Where one run goes on the other does, to a state that is the same but for the bytes received. -/
def EndsSame (status : Bool) (k k' : Outcome) : Prop :=
  ∀ t, k = .next t → ∃ t', k' = .next t' ∧ SameButReceived status t t'

section
variable {status : Bool} {t t' : State}

theorem sameButReceived_withReplies (s : State) (rs : List Byte) (x : Nat) :
    SameButReceived status s (s.withReplies rs x) :=
  ⟨s.trace, rs, x, s.result, rfl, fun _ => rfl, rfl⟩

theorem SameButReceived.answer (h : SameButReceived status t t') (kind : ResultKind) (res : Word) :
    SameButReceived status (t.answer kind res) (t'.answer kind res) := by
  obtain ⟨events, rs, x, r, hsent, -, rfl⟩ := h
  exact ⟨events, rs, x, ⟨kind, res⟩, hsent, fun _ => rfl, rfl⟩

/-- A status operation may answer another result. -/
theorem SameButReceived.answer_status (h : SameButReceived status t t') (kind : ResultKind) (res res' : Word) :
    SameButReceived true (t.answer kind res) (t'.answer kind res') := by
  obtain ⟨events, rs, x, r, hsent, -, rfl⟩ := h
  exact ⟨events, rs, x, ⟨kind, res'⟩, hsent, nofun, rfl⟩

/-- A register write sends a frame of the configuration, and discards what it receives. -/
theorem SameButReceived.writeReg (h : SameButReceived status t t') (sel : ChipSel) (w : Word) :
    SameButReceived status (t.writeReg sel w) (t'.writeReg sel w) := by
  obtain ⟨events, rs, x, r, hsent, hr, rfl⟩ := h
  have hframe : State.frameToSel { t with trace := events, replies := rs, xfers := x, result := r } sel w =
      t.frameToSel sel w := by cases sel <;> rfl
  rw [writeReg_eq, writeReg_eq, hframe]
  refine ⟨_, _, _, r, ?_, hr, rfl⟩
  rw [State.afterTransaction_trace, List.map_append, List.map_append, hsent,
    map_sent_transactionEvents _ (t.received _) _ ((length_received ..).trans (length_received ..).symm)]

theorem endsSame_next (h : SameButReceived status t t') : EndsSame status (.next t) (.next t') := by
  intro u hu
  cases hu
  exact ⟨t', rfl, h⟩

end

/-! ### The checks

They read nothing of what comes back. -/

section
variable {status : Bool} {s : State} {rs : List Byte} {x : Nat} {k k' : Outcome}

theorem endsSame_raise (code : FaultCode) :
    EndsSame status (.next (s.raise code)) (.next ((s.withReplies rs x).raise code)) :=
  endsSame_next ⟨s.trace, rs, x, ⟨.fault, 0⟩, rfl, fun _ => rfl, rfl⟩

theorem EndsSame.whenRunning (h : EndsSame status k k') :
    EndsSame status (whenRunning s k) (whenRunning (s.withReplies rs x) k') := by
  by_cases hf : s.faultCode = .none
  · rwa [whenRunning_running hf, whenRunning_running (s := s.withReplies rs x) hf]
  · rw [whenRunning_stuck hf]
    intro t h
    cases h

theorem EndsSame.whenConfigured (h : EndsSame status k k') :
    EndsSame status (whenConfigured s k) (whenConfigured (s.withReplies rs x) k') := by
  apply EndsSame.whenRunning
  by_cases hv : s.cfgValid = true
  · rwa [if_pos hv, if_pos (show (s.withReplies rs x).cfgValid = true from hv)]
  · rw [if_neg hv, if_neg (show ¬ (s.withReplies rs x).cfgValid = true from hv)]
    exact endsSame_raise .notConfigured

theorem EndsSame.unlessFault (h : EndsSame status k k') (code : FaultCode) :
    EndsSame status (unlessFault code s k) (unlessFault code (s.withReplies rs x) k') := by
  by_cases hc : code = .none
  · rwa [hc, unlessFault_none, unlessFault_none]
  · rw [unlessFault_of_ne_none _ _ hc, unlessFault_of_ne_none _ _ hc]
    exact endsSame_raise code

end

/-! ### The operations -/

theorem configure_endsSame (n : Nat) (res : BitVec 2) (s : State) (rs : List Byte) (x : Nat) :
    EndsSame false (exec (.configure n res) s) (exec (.configure n res) (s.withReplies rs x)) := by
  apply EndsSame.whenRunning
  cases hv : s.cfgValid with
  | true =>
    rw [if_pos rfl, if_pos (show (s.withReplies rs x).cfgValid = true from hv)]
    exact endsSame_raise .alreadyConfigured
  | false =>
    rw [if_neg Bool.false_ne_true, if_neg (show ¬ (s.withReplies rs x).cfgValid = true from ne_true_of_eq_false hv)]
    cases Resolution.ofCode res with
    | none => exact endsSame_raise .invalidResolution
    | some r =>
      have hstart := sameButReceived_withReplies (status := false) (s.configured n r).setUpPins rs x
      exact endsSame_next ((hstart.writeReg .allChips powerUpWord).answer .none 0)

/-- A read is two register writes before the result. -/
theorem testStatus_sameButReceived (s : State) (rs : List Byte) (x k bit : Nat) :
    SameButReceived true (s.testStatus k bit) ((s.withReplies rs x).testStatus k bit) :=
  (((sameButReceived_withReplies (status := true) s rs x).writeReg (.chip k) powerReadWord).writeReg
    (.chip k) nopWord).answer_status ..

theorem exec_endsSame (i : Instr) (s : State) (rs : List Byte) (x : Nat) :
    EndsSame (isStatusOperation i) (exec i s) (exec i (s.withReplies rs x)) := by
  have hstart : SameButReceived false s (s.withReplies rs x) := sameButReceived_withReplies s rs x
  cases i with
  | configure n res => exact configure_endsSame n res s rs x
  | channelCount | minValue | maxValue => exact (endsSame_next (hstart.answer ..)).whenConfigured
  | setOutputRange t range =>
    have hrange : SameButReceived false { s with polarity := (rangeMap range).1 }
        { s.withReplies rs x with polarity := (rangeMap range).1 } := sameButReceived_withReplies _ rs x
    exact ((endsSame_next ((hrange.writeReg ..).answer ..)).unlessFault _).whenConfigured
  | writeValue t value =>
    exact ((endsSame_next (((hstart.writeReg ..).writeReg ..).answer ..)).unlessFault _).whenConfigured
  | channelPoweredUp | referencePoweredUp | thermalShutdown | channelOverCurrent =>
    exact ((endsSame_next (testStatus_sameButReceived ..)).unlessFault _).whenConfigured
  | codecEncode | codecDecode => exact (endsSame_next (hstart.answer ..)).whenRunning
  | illegalOperation op => exact (endsSame_raise .illegalOperation).whenRunning
  | dgPowerUp | dgNop => exact (endsSame_next (hstart.writeReg ..)).whenConfigured
  | dgDacWrite | dgRangeWrite | dgLoad | dgPowerRead =>
    exact ((endsSame_next (hstart.writeReg ..)).unlessFault _).whenConfigured

/-- Settles O43: `exec_endsSame`, read off the two states. -/
theorem receivedBytesReachOnlyStatusResults : Obligations.ReceivedBytesReachOnlyStatusResults := by
  intro i s t rs x h
  obtain ⟨t', hexec, events, rs', x', r, hsent, hresult, rfl⟩ := exec_endsSame i s rs x t h
  exact ⟨_, hexec, hsent, rfl, hresult⟩

end Sys2Proof.Machine
end
